-- ==== Sys2Proof/Word.lean ====
section
/-! DEFINITION. The word, the output or input code and the register number (spec 00_scope.md R7). -/

namespace Sys2Proof

/-- A register, a memory cell, an address or an instruction: 16 bits (R7). -/
abbrev Word := BitVec 16

/-- An 8-bit code that the host supplies or receives, or a trap vector (R7, R42, R103). -/
abbrev Byte := BitVec 8

/-- The number i of the general register Ri (R14). -/
abbrev Reg := Fin 8

end Sys2Proof
end

