-- ==== Sys2Proof/Config.lean ====
section
/-! DEFINITION. What the spec fixes once for the machine, and the values it leaves OPEN, as constants
without a body: nothing can be proved about which value they have. -/

namespace Sys2Proof

/-- The address of the keyboard-status cell (R23, R46). UNVERIFIED: 92_eei_decisions.md D5 takes it from
general knowledge of the LC-3 (log entry 11). -/
def Config.kbsrAddr : Word := 0xFE00#16

/-- The address of the keyboard-data cell (R24, R46). UNVERIFIED: D5, as for kbsrAddr (log entry 11). -/
def Config.kbdrAddr : Word := 0xFE02#16

/-- The value of PC at reset (R29), and the default of the parameter `entry_pc` (R136). -/
def Config.resetPc : Word := 0x3000#16

/-- `gpr_reset` (R31, D11): what R0 to R7 hold at reset. A free value (log entry 3). -/
opaque Config.gprReset : Reg → Word

/-- `trap_links_r7` (R105, D10): whether TRAP writes R7 <- PC'. A free value (log entry 4). -/
opaque Config.trapLinksR7 : Bool

/-- `eof_r0` (R107, R110, D16): R0 after GETC or IN at end of input. A free value (log entry 5). -/
opaque Config.eofR0 : Word

/-- `in_prompt` (R110, D18): the codes that IN emits before it reads. A free value (log entry 6). -/
opaque Config.inPrompt : List Byte

/-- `halt_message` (R112, D19): the codes that HALT emits before it stops. A free value (log entry 7). -/
opaque Config.haltMessage : List Byte

/-- `abort_flushes` (R118, D23): whether output emitted before a fatal stop reaches the host. A free
value (log entry 8). -/
opaque Config.abortFlushes : Bool

end Sys2Proof
end

