-- ==== Sys2Proof/Syntax.lean ====
section
/-! DEFINITION. The instructions, one constructor for each row of spec/opcode_table.json. Each carries the
fields that its row gives it (30_encoding.md R56, R57), before any sign extension. The bits that no field of
the row uses are ignored (R65) and do not stand here. -/

namespace Sys2Proof

inductive Instr where
  /-- ADD, register mode: `0001dddsss0xxttt` (R85). -/
  | add (dr sr1 sr2 : Reg)
  /-- ADD, immediate mode: `0001dddsss1iiiii` (R86). -/
  | addImm (dr sr1 : Reg) (imm5 : BitVec 5)
  /-- AND, register mode: `0101dddsss0xxttt` (R87). -/
  | and (dr sr1 sr2 : Reg)
  /-- AND, immediate mode: `0101dddsss1iiiii` (R88). -/
  | andImm (dr sr1 : Reg) (imm5 : BitVec 5)
  /-- NOT: `1001dddsssxxxxxx` (R89). -/
  | not (dr sr : Reg)
  /-- BR: `0000nzpooooooooo` (R90). -/
  | br (n z p : Bool) (offset9 : BitVec 9)
  /-- JMP, and RET when `baseR` is 7: `1100xxxbbbxxxxxx` (R91). -/
  | jmp (baseR : Reg)
  /-- JSR: `01001ooooooooooo` (R92). -/
  | jsr (offset11 : BitVec 11)
  /-- JSRR: `01000xxbbbxxxxxx` (R93). -/
  | jsrr (baseR : Reg)
  /-- LD: `0010dddooooooooo` (R96). -/
  | ld (dr : Reg) (offset9 : BitVec 9)
  /-- LDI: `1010dddooooooooo` (R97). -/
  | ldi (dr : Reg) (offset9 : BitVec 9)
  /-- LDR: `0110dddbbboooooo` (R98). -/
  | ldr (dr baseR : Reg) (offset6 : BitVec 6)
  /-- LEA: `1110dddooooooooo` (R99). -/
  | lea (dr : Reg) (offset9 : BitVec 9)
  /-- ST: `0011sssooooooooo` (R100). -/
  | st (sr : Reg) (offset9 : BitVec 9)
  /-- STI: `1011sssooooooooo` (R101). -/
  | sti (sr : Reg) (offset9 : BitVec 9)
  /-- STR: `0111sssbbboooooo` (R102). -/
  | str (sr baseR : Reg) (offset6 : BitVec 6)
  /-- TRAP GETC: `1111xxxx00100000` (R107). -/
  | trapGetc
  /-- TRAP OUT: `1111xxxx00100001` (R108). -/
  | trapOut
  /-- TRAP PUTS: `1111xxxx00100010` (R109). -/
  | trapPuts
  /-- TRAP IN: `1111xxxx00100011` (R110). -/
  | trapIn
  /-- TRAP PUTSP: `1111xxxx00100100` (R111). -/
  | trapPutsp
  /-- TRAP HALT: `1111xxxx00100101` (R112). -/
  | trapHalt
  /-- TRAP with any other vector: `1111xxxxvvvvvvvv` (R113). -/
  | trapUnsupported (trapvect8 : Byte)
  /-- RTI, reserved: `1000xxxxxxxxxxxx` (R114). -/
  | rti
  /-- RES, reserved: `1101xxxxxxxxxxxx` (R115). -/
  | res
deriving DecidableEq, Repr

end Sys2Proof
end

