-- ==== Sys2Proof/Machine/State.lean ====
section
/-! DEFINITION. The architectural state (10_state.md R13), as plain data, and its reset value (R29 to R34). -/

namespace Sys2Proof.Machine

/-- COND: exactly one of Negative, Zero, Positive (R18). R21 lets a model hold it as a three-valued type (log
entry 19). -/
inductive Flag where
  | n | z | p
deriving DecidableEq, Repr

/-- One input event of the host (R28, R42). -/
inductive InputEvent where
  /-- `Char(b)`, with b an 8-bit code. -/
  | char (b : Byte)
  /-- `Eof`. -/
  | eof
deriving DecidableEq, Repr

/-- The two fatal conditions (R116) with what each records (R117). `raise` puts one of them into `status`;
`step` answers it for a state whose run has ended in it. -/
inductive Fault where
  /-- Raised by RTI (0x8) and RES (0xD), always (R114, R115), with the opcode and the address of the
  instruction. Safe: the state after it is exactly R118's, and no step follows. -/
  | unsupportedOpcode (op : BitVec 4) (addr : Word)
  /-- Raised by TRAP with a vector outside 0x20..0x25 (R113), with the vector and the address of the
  instruction. Safe, as the other. -/
  | unsupportedTrap (v : Byte) (addr : Word)
deriving DecidableEq, Repr

/-- Why the model gives no next state, other than a fatal condition of the spec. -/
inductive Refusal where
  /-- The instruction has no meaning yet. No arm of `exec` answers it in this model. Safe. -/
  | notModelled (mnemonic : String)
  /-- Answered by `step` for a state whose run has ended by HALT: no step is defined there (R26). Safe. -/
  | runHalted
  /-- Answered by `loadImage` and `launch`, never by `step`: the image breaks the loader's precondition
  (R135, D25). Safe. -/
  | malformedImage
deriving DecidableEq, Repr

/-- The run status (R26). -/
inductive RunStatus where
  | running
  | halted
  | faulted (f : Fault)
deriving DecidableEq, Repr

/-- Memory as pairs of a cell's address and its 16-bit value, addresses strictly rising, no value that an
unlisted cell reads as (see `Memory.wf`). The unit is the cell, because the CORE addresses no bytes
(R25, R43; DESIGN CHOICE, log entry 10). -/
abbrev Memory := List (Nat × Word)

/-- The state record of R13, and two fields of the model's own. `input`: the events that the host has supplied
and the CORE has not yet taken (R28, R42; DESIGN CHOICE, log entry 1). `held`: the instruction of the step that
is in progress, waiting at InputRead for an event, with the effects that R73 names made; `none` between steps
(DEDUCED, log entry 2). -/
structure State where
  regs    : Vector Word 8
  pc      : Word
  cond    : Flag
  mem     : Memory
  status  : RunStatus
  out     : List Byte
  flushed : Nat
  input   : List InputEvent
  held    : Option Instr
deriving DecidableEq, Repr

/-- Reset (R29 to R33) for a given `gpr_reset`: PC = 0x3000, COND = Z, every cell 0, Running, no output, and
R0 to R7 as `gpr` says (R31: a model quantifies over every such function). The host has supplied no event yet
(DESIGN CHOICE, log entry 1), and no step is in progress. -/
def State.resetWith (gpr : Reg → Word) : State where
  regs    := Vector.ofFn gpr
  pc      := Config.resetPc
  cond    := .z
  mem     := []
  status  := .running
  out     := []
  flushed := 0
  input   := []
  held    := none

/-- The machine right after reset: R0 to R7 hold the free values `gpr_reset` (R31; DESIGN CHOICE, log entry
3). -/
def State.reset : State := State.resetWith Config.gprReset

end Sys2Proof.Machine
end

