-- ==== Sys2Proof/Machine/Ops.lean ====
section
/-! DEFINITION. The named operations over registers, memory, input, output and the run status: the primitives of
00_scope.md R10, on which every meaning is written. An operation that reads the host's input answers `none`
when it holds (R42). -/

namespace Sys2Proof.Machine

/-! ## Memory -/

/-- What a cell that is not listed reads as: memory is zero at reset (R32). -/
def Memory.unlisted : Word := 0x0000#16

/-- The value of the cell at `a` (R25). -/
def Memory.read (a : Nat) : Memory → Word
  | [] => Memory.unlisted
  | (b, v) :: rest => if a = b then v else Memory.read a rest

/-- Memory with the cell at `a` not listed. -/
def Memory.erase (a : Nat) : Memory → Memory
  | [] => []
  | (b, v) :: rest => if a = b then Memory.erase a rest else (b, v) :: Memory.erase a rest

/-- Memory with the pair put before the first higher address. -/
def Memory.insert (a : Nat) (v : Word) : Memory → Memory
  | [] => [(a, v)]
  | (b, u) :: rest => if a < b then (a, v) :: (b, u) :: rest else (b, u) :: Memory.insert a v rest

/-- The cell at `a` takes the value `v` (R40), in canonical form. -/
def Memory.write (a : Nat) (v : Word) (m : Memory) : Memory :=
  if v = Memory.unlisted then Memory.erase a m else Memory.insert a v (Memory.erase a m)

/-- The canonical form from address `lo` on. -/
def Memory.wfFrom (lo : Nat) : Memory → Bool
  | [] => true
  | (a, v) :: rest => decide (lo ≤ a) && decide (a < 65536) && decide (v ≠ Memory.unlisted) && Memory.wfFrom (a + 1) rest

/-- The canonical form: addresses strictly rising and in the space of 65,536 cells (R25), no entry equal to
what an unlisted cell reads as. -/
def Memory.wf (m : Memory) : Bool := Memory.wfFrom 0 m

/-! ## Registers -/

/-- `x[i]` (R10, R14). -/
def State.getReg (s : State) (r : Reg) : Word := s.regs.get r

/-- `x[i] <- v` (R10, R14). No register is hard-wired. -/
def State.setReg (s : State) (r : Reg) (v : Word) : State := { s with regs := s.regs.set r.val v r.isLt }

/-- `pc <- target` (R10; `program_counter.load` of R4). -/
def State.setPc (s : State) (target : Word) : State := { s with pc := target }

/-- The increment of the program counter, modulo 2^16 (R75). -/
def State.incPc (s : State) : State := s.setPc (s.pc + 1#16)

/-- `COND <- f` (R10). -/
def State.setCond (s : State) (f : Flag) : State := { s with cond := f }

/-- The address of the instruction that is executing, PC' - 1 (R17, R117). -/
def State.instrAddr (s : State) : Word := s.pc - 1#16

/-! ## Cells, the keyboard and the two access primitives -/

/-- `M[addr]` (R25). -/
def State.cell (s : State) (addr : Word) : Word := Memory.read addr.toNat s.mem

/-- `MemWrite(addr, 1, v)` (R40): unconditional, the keyboard cells included. It never polls. -/
def State.memWrite (s : State) (addr v : Word) : State := { s with mem := Memory.write addr.toNat v s.mem }

/-- An 8-bit code in a 16-bit word, `zext_8` (R10, R43). -/
def zext8 (b : Byte) : Word := b.setWidth 16

/-- The events that the host has supplied and the CORE has not taken become `events`. -/
def State.setInput (s : State) (events : List InputEvent) : State := { s with input := events }

/-- `InputRead()` (R42): the host's next event, or a hold. -/
def State.inputRead (s : State) : Option (InputEvent × State) :=
  match s.input with
  | [] => none
  | e :: rest => some (e, s.setInput rest)

/-- What `KbPoll()` writes for the event it took (R38, D13). -/
def State.pollCells (s : State) (e : InputEvent) : State :=
  match e with
  | .char b => (s.memWrite Config.kbsrAddr 0x8000#16).memWrite Config.kbdrAddr (zext8 b)
  | .eof => s.memWrite Config.kbsrAddr 0x0000#16

/-- `KbPoll()` (R38): one event, or a hold. -/
def State.kbPoll (s : State) : Option State := s.inputRead.map fun (e, t) => t.pollCells e

/-- `MemRead(addr, 1)` (R37): a read of KBSR polls first; every other read is pure (R41). -/
def State.memRead (s : State) (addr : Word) : Option (Word × State) :=
  if addr = Config.kbsrAddr then s.kbPoll.map fun t => (t.cell addr, t) else some (s.cell addr, s)

/-- The fetch (R74): the word at PC, then the increment of PC. -/
def State.fetch (s : State) : Option (Word × State) :=
  (s.memRead s.pc).map fun (ir, t) => (ir, t.incPc)

/-- The step in progress waits at InputRead (`some i`), or no step is in progress (`none`). -/
def State.setHeld (s : State) (h : Option Instr) : State := { s with held := h }

/-- The end of an instruction that can hold: complete, in the state `r`, or waiting for an event in `s`, the state
with exactly the effects that R73 says a step has made while it holds (R42; log entry 2). -/
def State.orHold (s : State) (i : Instr) (r : Option State) : State :=
  match r with
  | some t => t.setHeld none
  | none => s.setHeld (some i)

/-! ## Output -/

/-- `Emit` of each code in turn (R103). -/
def State.emit (s : State) (codes : List Byte) : State := { s with out := s.out ++ codes }

/-- `Flush()` (R103). Nothing else changes `flushed` (DEDUCED, log entry 18). -/
def State.flush (s : State) : State := { s with flushed := s.out.length }

/-! ## The end of a run -/

/-- `stop Halted` (R112). -/
def State.stopHalted (s : State) : State := { s with status := .halted }

/-- `raise E(info)` (R118), the entry of both exceptions: the run ends, and nothing else changes. PC stays
PC'. There is no handler, no saved register, no vector, and no return from an exception (R123, R124). -/
def State.raise (s : State) (f : Fault) : State := { s with status := .faulted f }

/-- The codes of the two fatal conditions, the spec's own names (R116). -/
def Fault.code : Fault → Nat
  | .unsupportedOpcode _ _ => 1
  | .unsupportedTrap _ _ => 2

end Sys2Proof.Machine
end

