-- ==== Sys2Proof/Machine/Flags.lean ====
section
/-! DEFINITION. flag_derivation (40_execution_cycle.md R79, R80) and the test of BR (R21, R90). -/

namespace Sys2Proof.Machine

/-- `flags(v)` (R79). -/
def flags (v : Word) : Flag := if v = 0x0000#16 then .z else if v.getLsbD 15 then .n else .p

/-- `setcc(v)` (R80). -/
def State.setcc (s : State) (v : Word) : State := s.setCond (flags v)

/-- A flag-defining write: the register, and then COND from its value (R80). -/
def State.setRegCc (s : State) (r : Reg) (v : Word) : State := (s.setReg r v).setcc v

/-- COND as three bits: P = 0b001, Z = 0b010, N = 0b100 (R21, D6). -/
def Flag.bits : Flag → BitVec 3
  | .n => 0b100
  | .z => 0b010
  | .p => 0b001

/-- Whether BR is taken (R90): one of its condition bits names the value of COND. -/
def branchTaken (n z p : Bool) (c : Flag) : Bool :=
  (n && c == .n) || (z && c == .z) || (p && c == .p)

end Sys2Proof.Machine
end

