-- ==== Sys2Proof/WellFormed.lean ====
section
/-! DEFINITION. Which terms of `Instr` are instructions. The types of the fields leave one check: the row of
an unsupported trap is met only by a vector that is none of the six routines (30_encoding.md R66). -/

namespace Sys2Proof

/-- The six vectors of the defined routines are 0x20 to 0x25 (R66). -/
def isRoutineVector (v : Byte) : Bool := 0x20#8 ≤ v && v ≤ 0x25#8

/-- One arm for each constructor. -/
def WellFormed (i : Instr) : Bool :=
  match i with
  | .add _ _ _ => true
  | .addImm _ _ _ => true
  | .and _ _ _ => true
  | .andImm _ _ _ => true
  | .not _ _ => true
  | .br _ _ _ _ => true
  | .jmp _ => true
  | .jsr _ => true
  | .jsrr _ => true
  | .ld _ _ => true
  | .ldi _ _ => true
  | .ldr _ _ _ => true
  | .lea _ _ => true
  | .st _ _ => true
  | .sti _ _ => true
  | .str _ _ _ => true
  | .trapGetc => true
  | .trapOut => true
  | .trapPuts => true
  | .trapIn => true
  | .trapPutsp => true
  | .trapHalt => true
  | .trapUnsupported v => !isRoutineVector v
  | .rti => true
  | .res => true

end Sys2Proof
end

