-- ==== Sys2Proof/Decode.lean ====
section
/-! DEFINITION. The instruction_decoder: a total function from a 16-bit word to an instruction (30_encoding.md
R54 to R66), and after it the encoder written from the same rows (R57). The bit positions and opcode numbers
are the decisions D2, D3 and D4 of the spec, which its source does not give: UNVERIFIED (log entry 11). -/

namespace Sys2Proof

/-- The 16 operations (R61, R63). -/
inductive Op where
  | BR | ADD | LD | ST | JSR | AND | LDR | STR | RTI | NOT | LDI | STI | JMP | RES | LEA | TRAP
deriving DecidableEq, Repr

/-- The decoder's output record (R63): every field, whatever the opcode. -/
structure Decoded where
  op        : Op
  r11_9     : Reg
  r8_6      : Reg
  r2_0      : Reg
  bit5      : Bool
  bit11     : Bool
  imm5      : Word
  off6      : Word
  off9      : Word
  off11     : Word
  trapvect8 : Byte
deriving DecidableEq, Repr

/-- `sext_5` (R58). -/
def sext5 (v : BitVec 5) : Word := v.signExtend 16

/-- `sext_6` (R58). -/
def sext6 (v : BitVec 6) : Word := v.signExtend 16

/-- `sext_9` (R58). -/
def sext9 (v : BitVec 9) : Word := v.signExtend 16

/-- `sext_11` (R58). -/
def sext11 (v : BitVec 11) : Word := v.signExtend 16

/-- I[11:9]: DR, SR, or the bits n z p (R56). -/
def fieldR11 (w : Word) : Reg := (w.extractLsb' 9 3).toFin

/-- I[8:6]: SR1, SR or BaseR (R56). -/
def fieldR8 (w : Word) : Reg := (w.extractLsb' 6 3).toFin

/-- I[2:0]: SR2 (R56). -/
def fieldR2 (w : Word) : Reg := (w.extractLsb' 0 3).toFin

/-- I[4:0] (R56). -/
def fieldImm5 (w : Word) : BitVec 5 := w.extractLsb' 0 5

/-- I[5:0] (R56). -/
def fieldOff6 (w : Word) : BitVec 6 := w.extractLsb' 0 6

/-- I[8:0] (R56). -/
def fieldOff9 (w : Word) : BitVec 9 := w.extractLsb' 0 9

/-- I[10:0] (R56). -/
def fieldOff11 (w : Word) : BitVec 11 := w.extractLsb' 0 11

/-- I[7:0] (R56). -/
def fieldVect8 (w : Word) : Byte := w.extractLsb' 0 8

/-- The opcode map over I[15], I[14], I[13], I[12] (R55, R61), closed over all 16 patterns (R62). -/
def opOf (w : Word) : Op :=
  match w.getLsbD 15, w.getLsbD 14, w.getLsbD 13, w.getLsbD 12 with
  | false, false, false, false => .BR
  | false, false, false, true  => .ADD
  | false, false, true,  false => .LD
  | false, false, true,  true  => .ST
  | false, true,  false, false => .JSR
  | false, true,  false, true  => .AND
  | false, true,  true,  false => .LDR
  | false, true,  true,  true  => .STR
  | true,  false, false, false => .RTI
  | true,  false, false, true  => .NOT
  | true,  false, true,  false => .LDI
  | true,  false, true,  true  => .STI
  | true,  true,  false, false => .JMP
  | true,  true,  false, true  => .RES
  | true,  true,  true,  false => .LEA
  | true,  true,  true,  true  => .TRAP

/-- The record of R63 for a word. -/
def decodeFields (w : Word) : Decoded where
  op        := opOf w
  r11_9     := fieldR11 w
  r8_6      := fieldR8 w
  r2_0      := fieldR2 w
  bit5      := w.getLsbD 5
  bit11     := w.getLsbD 11
  imm5      := sext5 (fieldImm5 w)
  off6      := sext6 (fieldOff6 w)
  off9      := sext9 (fieldOff9 w)
  off11     := sext11 (fieldOff11 w)
  trapvect8 := fieldVect8 w

/-- The trap vectors (R66, R105): six routines, every other vector unsupported. -/
def decodeTrap (v : Byte) : Instr :=
  if v = 0x20#8 then .trapGetc
  else if v = 0x21#8 then .trapOut
  else if v = 0x22#8 then .trapPuts
  else if v = 0x23#8 then .trapIn
  else if v = 0x24#8 then .trapPutsp
  else if v = 0x25#8 then .trapHalt
  else .trapUnsupported v

/-- `decode`, total over all 2^16 words (R62): the opcode and the mode bits I[5] and I[11] select the row
(R60, R77). The two reserved opcodes decode as well (R64). -/
def decode (w : Word) : Instr :=
  match opOf w with
  | .ADD  => if w.getLsbD 5 then .addImm (fieldR11 w) (fieldR8 w) (fieldImm5 w)
             else .add (fieldR11 w) (fieldR8 w) (fieldR2 w)
  | .AND  => if w.getLsbD 5 then .andImm (fieldR11 w) (fieldR8 w) (fieldImm5 w)
             else .and (fieldR11 w) (fieldR8 w) (fieldR2 w)
  | .NOT  => .not (fieldR11 w) (fieldR8 w)
  | .BR   => .br (w.getLsbD 11) (w.getLsbD 10) (w.getLsbD 9) (fieldOff9 w)
  | .JMP  => .jmp (fieldR8 w)
  | .JSR  => if w.getLsbD 11 then .jsr (fieldOff11 w) else .jsrr (fieldR8 w)
  | .LD   => .ld (fieldR11 w) (fieldOff9 w)
  | .LDI  => .ldi (fieldR11 w) (fieldOff9 w)
  | .LDR  => .ldr (fieldR11 w) (fieldR8 w) (fieldOff6 w)
  | .LEA  => .lea (fieldR11 w) (fieldOff9 w)
  | .ST   => .st (fieldR11 w) (fieldOff9 w)
  | .STI  => .sti (fieldR11 w) (fieldOff9 w)
  | .STR  => .str (fieldR11 w) (fieldR8 w) (fieldOff6 w)
  | .TRAP => decodeTrap (fieldVect8 w)
  | .RTI  => .rti
  | .RES  => .res

/-- A register number as the three bits of its field (R56). -/
def regBits (r : Reg) : BitVec 3 := BitVec.ofFin r

/-- The word of an instruction, from the patterns of R57. A bit with no field is ignored by the CORE (R65).
DESIGN CHOICE (log entry 12): the encoder writes such bits as 0, but for NOT, whose low six bits are
1 as in the spec's own example words (R89). -/
def encode (i : Instr) : Word :=
  match i with
  | .add dr sr1 sr2 => 0b0001#4 ++ regBits dr ++ regBits sr1 ++ 0b000#3 ++ regBits sr2
  | .addImm dr sr1 imm5 => 0b0001#4 ++ regBits dr ++ regBits sr1 ++ 0b1#1 ++ imm5
  | .and dr sr1 sr2 => 0b0101#4 ++ regBits dr ++ regBits sr1 ++ 0b000#3 ++ regBits sr2
  | .andImm dr sr1 imm5 => 0b0101#4 ++ regBits dr ++ regBits sr1 ++ 0b1#1 ++ imm5
  | .not dr sr => 0b1001#4 ++ regBits dr ++ regBits sr ++ 0b111111#6
  | .br n z p offset9 => 0b0000#4 ++ BitVec.ofBool n ++ BitVec.ofBool z ++ BitVec.ofBool p ++ offset9
  | .jmp baseR => 0b1100000#7 ++ regBits baseR ++ 0b000000#6
  | .jsr offset11 => 0b01001#5 ++ offset11
  | .jsrr baseR => 0b0100000#7 ++ regBits baseR ++ 0b000000#6
  | .ld dr offset9 => 0b0010#4 ++ regBits dr ++ offset9
  | .ldi dr offset9 => 0b1010#4 ++ regBits dr ++ offset9
  | .ldr dr baseR offset6 => 0b0110#4 ++ regBits dr ++ regBits baseR ++ offset6
  | .lea dr offset9 => 0b1110#4 ++ regBits dr ++ offset9
  | .st sr offset9 => 0b0011#4 ++ regBits sr ++ offset9
  | .sti sr offset9 => 0b1011#4 ++ regBits sr ++ offset9
  | .str sr baseR offset6 => 0b0111#4 ++ regBits sr ++ regBits baseR ++ offset6
  | .trapGetc => 0xF020
  | .trapOut => 0xF021
  | .trapPuts => 0xF022
  | .trapIn => 0xF023
  | .trapPutsp => 0xF024
  | .trapHalt => 0xF025
  | .trapUnsupported v => 0b11110000#8 ++ v
  | .rti => 0x8000
  | .res => 0xD000

/-- What the decoder reads from an instruction whose bits are `w`, in the table's numbering (bit 0 is the
least significant bit of the word). An instruction is exactly one 16-bit word (R54), so more than 16 bits,
or a number that does not fit in `nbits`, is no instruction. -/
def decodeTableWord (nbits w : Nat) : Option Instr :=
  if nbits ≤ 16 ∧ w < 2 ^ nbits then some (decode (BitVec.ofNat 16 w)) else none

end Sys2Proof
end

