-- ==== Sys2Proof/Machine/Operands.lean ====
section
/-! DEFINITION. alu_16bit (40_execution_cycle.md R81 to R83), the operand forms (30_encoding.md R59, R60), the
addressing modes (43_load_store.md R95) and the two halves of a word (20_memory.md R43). -/

namespace Sys2Proof.Machine

/-- `add(a, b)`, modulo 2^16, the carry discarded (R81). -/
def aluAdd (a b : Word) : Word := a + b

/-- `and(a, b)`, bitwise (R82). -/
def aluAnd (a b : Word) : Word := a &&& b

/-- `not(a) = a XOR 0xFFFF` (R83). -/
def aluNot (a : Word) : Word := a ^^^ 0xFFFF#16

/-- The PC-relative mode with offset9: PC' + sext_9(offset9) (R76, R95). -/
def State.pcRel9 (s : State) (offset9 : BitVec 9) : Word := aluAdd s.pc (sext9 offset9)

/-- The PC-relative target of JSR: PC' + sext_11(offset11) (R76, R92). -/
def State.pcRel11 (s : State) (offset11 : BitVec 11) : Word := aluAdd s.pc (sext11 offset11)

/-- The base plus offset mode: x[BaseR] + sext_6(offset6) (R76, R95). -/
def State.baseRel6 (s : State) (baseR : Reg) (offset6 : BitVec 6) : Word :=
  aluAdd (s.getReg baseR) (sext6 offset6)

/-- Bits 7..0 of a word (R43). -/
def lowByte (w : Word) : Byte := w.extractLsb' 0 8

/-- Bits 15..8 of a word (R43). -/
def highByte (w : Word) : Byte := w.extractLsb' 8 8

end Sys2Proof.Machine
end

