-- ==== Sys2Proof/Machine/Control.lean ====
section
/-! DEFINITION. Control transfer (42_control.md). PC is already PC' in every meaning (R74). -/

namespace Sys2Proof.Machine

/-- BR (R90). Not taken leaves PC = PC' (90_conflicts.md C3, C6). -/
def execBr (n z p : Bool) (offset9 : BitVec 9) (s : State) : Host.Outcome State Fault Refusal :=
  .next (if branchTaken n z p s.cond then s.setPc (s.pcRel9 offset9) else s)

/-- JMP, and RET when BaseR is R7 (R91). -/
def execJmp (baseR : Reg) (s : State) : Host.Outcome State Fault Refusal :=
  .next (s.setPc (s.getReg baseR))

/-- The link of JSR and JSRR: R7 <- PC', without writing COND (R19, R92, R93). -/
def State.link (s : State) : State := s.setReg 7 s.pc

/-- JSR (R92). -/
def execJsr (offset11 : BitVec 11) (s : State) : Host.Outcome State Fault Refusal :=
  .next (s.link.setPc (s.pcRel11 offset11))

/-- JSRR (R93): the base register is read after the link is written (D9), and the target is PC' plus its
value (90_conflicts.md C7). -/
def execJsrr (baseR : Reg) (s : State) : Host.Outcome State Fault Refusal :=
  .next (s.link.setPc (aluAdd s.pc (s.link.getReg baseR)))

end Sys2Proof.Machine
end

