-- ==== Sys2Proof/Machine/LoadStore.lean ====
section
/-! DEFINITION. Loads, stores and LEA (43_load_store.md). PC is already PC' in every meaning (R74). A read of KBSR
may hold (R38); the step has then made the PC increment alone (R73). -/

namespace Sys2Proof.Machine

/-- A load of the cell at `ea` into `dr`, with COND (R96, R97, R98); `none` when the read holds. -/
def State.loadFrom (s : State) (dr : Reg) (ea : Word) : Option State :=
  (s.memRead ea).map fun (v, t) => t.setRegCc dr v

/-- LD (R96). -/
def execLd (dr : Reg) (offset9 : BitVec 9) (s : State) : Host.Outcome State Fault Refusal :=
  .next (s.orHold (.ld dr offset9) (s.loadFrom dr (s.pcRel9 offset9)))

/-- LDI (R97): the pointer read and the data read both go through MemRead. -/
def execLdi (dr : Reg) (offset9 : BitVec 9) (s : State) : Host.Outcome State Fault Refusal :=
  .next (s.orHold (.ldi dr offset9) ((s.memRead (s.pcRel9 offset9)).bind fun (p, t) => t.loadFrom dr p))

/-- LDR (R98): the base is read before DR is written. -/
def execLdr (dr baseR : Reg) (offset6 : BitVec 6) (s : State) : Host.Outcome State Fault Refusal :=
  .next (s.orHold (.ldr dr baseR offset6) (s.loadFrom dr (s.baseRel6 baseR offset6)))

/-- LEA (R99): no memory access; COND is written (90_conflicts.md C9). -/
def execLea (dr : Reg) (offset9 : BitVec 9) (s : State) : Host.Outcome State Fault Refusal :=
  .next (s.setRegCc dr (s.pcRel9 offset9))

/-- ST (R100). -/
def execSt (sr : Reg) (offset9 : BitVec 9) (s : State) : Host.Outcome State Fault Refusal :=
  .next (s.memWrite (s.pcRel9 offset9) (s.getReg sr))

/-- STI (R101): the pointer read can poll; the write never does. -/
def execSti (sr : Reg) (offset9 : BitVec 9) (s : State) : Host.Outcome State Fault Refusal :=
  .next (s.orHold (.sti sr offset9) ((s.memRead (s.pcRel9 offset9)).map fun (p, t) => t.memWrite p (t.getReg sr)))

/-- STR (R102). -/
def execStr (sr baseR : Reg) (offset6 : BitVec 6) (s : State) : Host.Outcome State Fault Refusal :=
  .next (s.memWrite (s.baseRel6 baseR offset6) (s.getReg sr))

end Sys2Proof.Machine
end

