-- ==== Sys2Proof/Machine/Operate.lean ====
section
/-! DEFINITION. The operate instructions (41_operate.md). PC is already PC' in every meaning (R74). -/

namespace Sys2Proof.Machine

/-- ADD, register mode (R85). -/
def execAdd (dr sr1 sr2 : Reg) (s : State) : Host.Outcome State Fault Refusal :=
  .next (s.setRegCc dr (aluAdd (s.getReg sr1) (s.getReg sr2)))

/-- ADD, immediate mode (R86). -/
def execAddImm (dr sr1 : Reg) (imm5 : BitVec 5) (s : State) : Host.Outcome State Fault Refusal :=
  .next (s.setRegCc dr (aluAdd (s.getReg sr1) (sext5 imm5)))

/-- AND, register mode (R87). -/
def execAnd (dr sr1 sr2 : Reg) (s : State) : Host.Outcome State Fault Refusal :=
  .next (s.setRegCc dr (aluAnd (s.getReg sr1) (s.getReg sr2)))

/-- AND, immediate mode (R88). -/
def execAndImm (dr sr1 : Reg) (imm5 : BitVec 5) (s : State) : Host.Outcome State Fault Refusal :=
  .next (s.setRegCc dr (aluAnd (s.getReg sr1) (sext5 imm5)))

/-- NOT (R89). -/
def execNot (dr sr : Reg) (s : State) : Host.Outcome State Fault Refusal :=
  .next (s.setRegCc dr (aluNot (s.getReg sr)))

end Sys2Proof.Machine
end

