-- ==== Sys2Proof/Machine/Reserved.lean ====
section
/-! DEFINITION. The reserved opcodes (45_reserved.md). -/

namespace Sys2Proof.Machine

/-- RTI (R114): the fatal condition UnsupportedOpcode(0x8). -/
def execRti (s : State) : Host.Outcome State Fault Refusal :=
  .next (s.raise (.unsupportedOpcode 0x8#4 s.instrAddr))

/-- RES (R115): the fatal condition UnsupportedOpcode(0xD). -/
def execRes (s : State) : Host.Outcome State Fault Refusal :=
  .next (s.raise (.unsupportedOpcode 0xD#4 s.instrAddr))

end Sys2Proof.Machine
end

