-- ==== Sys2Proof/Machine/Trap.lean ====
section
/-! DEFINITION. TRAP and its routines (44_trap.md), each executed inside the TRAP's own step (R105). PC is already PC'
in every meaning, and stays there (R106). -/

namespace Sys2Proof.Machine

/-- The optional link of every TRAP, before the routine runs and before the vector is checked: R7 <- PC' when
`trap_links_r7` (R105, R122). It does not write COND. -/
def State.trapLink (s : State) : State :=
  s.setReg 7 (if Config.trapLinksR7 then s.pc else s.getReg 7)

/-- The end of GETC and IN, once the event is taken (R107, R110): R0 and COND, and KBSR cleared at end of
input (D16). -/
def State.receive (s : State) (e : InputEvent) : State :=
  match e with
  | .char b => s.setRegCc 0 (zext8 b)
  | .eof => (s.memWrite Config.kbsrAddr 0x0000#16).setRegCc 0 Config.eofR0

/-- The codes that IN echoes for an event: the character, or nothing at end of input (R110). -/
def echo : InputEvent → List Byte
  | .char b => [b]
  | .eof => []

/-- GETC (R107). While it holds, its link is written (R73). -/
def execGetc (s : State) : Host.Outcome State Fault Refusal :=
  .next (s.trapLink.orHold .trapGetc (s.trapLink.inputRead.map fun (e, t) => t.receive e))

/-- OUT (R108). -/
def execOut (s : State) : Host.Outcome State Fault Refusal :=
  .next (s.trapLink.emit [lowByte (s.trapLink.getReg 0)])

/-- The walk of PUTS and PUTSP (R109, R111): it reads cells from `a` on, wrapping modulo 2^16, emits `codes` of
each, and ends after it has read a zero cell. Each read is a MemRead, which polls at KBSR and may hold
(`none`). `fuel` bounds the cells it reads. -/
def State.stringWalk (codes : Word → List Byte) : Nat → Word → State → Option State
  | 0, _, _ => none
  | fuel + 1, a, s =>
    match s.memRead a with
    | none => none
    | some (c, t) => if c = 0x0000#16 then some t else State.stringWalk codes fuel (a + 1#16) (t.emit (codes c))

/-- A bound that no walk exceeds: 65,536 reads pass KBSR once, which consumes an event, holds, or ends the
walk (R38). A walk that never ends is a hang (D21), and so is no completed step either way (DEDUCED, log
entry 13). -/
def State.walkFuel (s : State) : Nat := 65536 * (s.input.length + 1)

/-- The walk from the address in R0 (R109, R111). -/
def State.putString (s : State) (codes : Word → List Byte) : Option State :=
  State.stringWalk codes s.walkFuel (s.getReg 0) s

/-- PUTS emits bits 7..0 of each cell (R109). -/
def putsCodes (c : Word) : List Byte := [lowByte c]

/-- PUTSP emits the low byte and then the high byte, unless the high byte is null (R111). -/
def putspCodes (c : Word) : List Byte :=
  if highByte c = 0x00#8 then [lowByte c] else [lowByte c, highByte c]

/-- PUTS (R109). While it holds, R73 lists its link among the effects made and no code of its walk (log entry 2). -/
def execPuts (s : State) : Host.Outcome State Fault Refusal :=
  .next (s.trapLink.orHold .trapPuts (s.trapLink.putString putsCodes))

/-- The prompt that IN has still to emit: a step that has held has emitted it (R73, R110). -/
def State.promptDue (s : State) : List Byte := if s.held = some .trapIn then [] else Config.inPrompt

/-- IN up to its read: the link and the prompt, the effects it has made while it holds (R73, R110). -/
def State.prompted (s : State) : State := s.trapLink.emit s.promptDue

/-- IN (R110): the prompt, the read, and the echo of a character. -/
def execIn (s : State) : Host.Outcome State Fault Refusal :=
  .next (s.prompted.orHold .trapIn (s.prompted.inputRead.map fun (e, t) => (t.emit (echo e)).receive e))

/-- PUTSP (R111). A hold is as for PUTS. -/
def execPutsp (s : State) : Host.Outcome State Fault Refusal :=
  .next (s.trapLink.orHold .trapPutsp (s.trapLink.putString putspCodes))

/-- HALT (R112). -/
def execHalt (s : State) : Host.Outcome State Fault Refusal :=
  .next (s.trapLink.emit Config.haltMessage).flush.stopHalted

/-- TRAP with an unsupported vector (R113): the link stays written (R118). -/
def execTrapUnsupported (trapvect8 : Byte) (s : State) : Host.Outcome State Fault Refusal :=
  .next (s.trapLink.raise (.unsupportedTrap trapvect8 s.instrAddr))

end Sys2Proof.Machine
end

