-- ==== Sys2Proof/Machine/HostOps.lean ====
section
/-! DEFINITION. What the host does to the CORE and sees of it (60_exceptions.md R132): the load before the first fetch,
input events, and the output that it has received. No step of the CORE does any of this. -/

namespace Sys2Proof.Machine

/-- The words of the image from its big-endian byte pairs (R43, R135); `none` for an odd count of bytes. -/
def imageWords : List Byte → Option (List Word)
  | [] => some []
  | [_] => none
  | b0 :: b1 :: rest => (imageWords rest).map fun ws => (b0 ++ b1 : Word) :: ws

/-- `M[addr + k] <- words[k]`, in turn (R135). -/
def State.loadWords (s : State) (addr : Word) : List Word → State
  | [] => s
  | w :: rest => State.loadWords (s.memWrite addr w) (addr + 1#16) rest

/-- `Load(bytes)` (R135). An odd count of bytes, an image without its first word, and one that runs past
0xFFFF break the precondition and are refused (D25). -/
def State.loadImage (s : State) (bytes : List Byte) : Host.Outcome State Fault Refusal :=
  match imageWords bytes with
  | some (origin :: words) =>
    if origin.toNat + words.length ≤ 65536 then .next (s.loadWords origin words) else .refused .malformedImage
  | _ => .refused .malformedImage

/-- The sequence before the first fetch: reset, load, and PC <- `entry_pc` (R134, R136), for given `gpr_reset`
and `entry_pc`. -/
def State.launch (gpr : Reg → Word) (bytes : List Byte) (entryPc : Word) : Host.Outcome State Fault Refusal :=
  match (State.resetWith gpr).loadImage bytes with
  | .next s => .next (s.setPc entryPc)
  | .fault f => .fault f
  | .refused r => .refused r

/-- The host supplies its next event (R42, R132). -/
def State.supplyInput (s : State) (e : InputEvent) : State := s.setInput (s.input ++ [e])

/-- The codes that have reached the host: those delivered by a flush (R27, R103), and all of them after a
fatal stop if `abort_flushes` (R118, R133). -/
def State.hostOutput (s : State) : List Byte :=
  match s.status with
  | .running => s.out.take s.flushed
  | .halted => s.out.take s.flushed
  | .faulted _ => if Config.abortFlushes then s.out else s.out.take s.flushed

end Sys2Proof.Machine
end

