-- ==== Sys2Proof/Machine/Step.lean ====
section
/-! DEFINITION. One architectural step (40_execution_cycle.md R72), and where its next instruction is fetched. -/

namespace Sys2Proof.Machine

/-- `Step(s)` (R72), enabled only while Running (R26). A step that holds answers the state in which it waits, with
`held` set; from there each step waits on without a change while the host has supplied no event, and with an
event the same instruction goes on (R42, R73; log entry 2). A fetch holds before it has made any effect, its read
coming before the PC increment (R72, R74). No step is defined after the end of a run: after HALT the answer is a
refusal, after a fatal condition it is that condition (DESIGN CHOICE, log entry 9). -/
def step (s : State) : Host.Outcome State Fault Refusal :=
  match s.status with
  | .running =>
    match s.held with
    | some i => if s.input.isEmpty then .next s else exec i s
    | none =>
      match s.fetch with
      | none => .next s
      | some (ir, t) => exec (decode ir) t
  | .halted => .refused .runHalted
  | .faulted f => .fault f

/-- Where an instruction can be placed for the next step to run it: the cell at PC, or the reset PC if PC is
KBSR, whose cell the fetch's own poll overwrites (R74; log entry 14). -/
def State.fetchSlot (s : State) : Word := if s.pc = Config.kbsrAddr then Config.resetPc else s.pc

/-- `s` with the instruction stored where `step` fetches next, Running and with no step in progress, so that the next
step runs it (log entry 14). -/
def State.withFetchWord (s : State) (nbits w : Nat) : State :=
  { (s.memWrite s.fetchSlot (BitVec.ofNat 16 (w % 2 ^ nbits))) with pc := s.fetchSlot, status := .running, held := none }

end Sys2Proof.Machine
end

