-- ==== Sys2Proof/Safety.lean ====
section
/-! DEFINITION. What counts as a safe state and a normal end of a run (60_exceptions.md R118, R133), in the terms the
statements use. -/

namespace Sys2Proof.Machine

/-- A run ends normally if and only if its status is Halted (R133). -/
def State.endedNormally (s : State) : Prop := s.status = .halted

/-- A run that ends in Faulted is abnormal, and refutes any claim of a normal end (R118, R133). -/
def State.endedAbnormally (s : State) : Prop := ∃ f, s.status = .faulted f

/-- `t` is reached from `s` in exactly `k` completed steps. -/
def reachesIn : Nat → State → State → Prop
  | 0, s, t => s = t
  | k + 1, s, t => ∃ u, step s = .next u ∧ reachesIn k u t

/-- No state on any run from `s` has ended in a fatal condition. -/
def State.safeRun (s : State) : Prop := ∀ k t, reachesIn k s t → ¬ t.endedAbnormally

/-- The instructions that can hold: those that read a cell which can be KBSR, and GETC and IN (R73, R104). -/
def canHold (i : Instr) : Bool :=
  match i with
  | .add _ _ _ => false
  | .addImm _ _ _ => false
  | .and _ _ _ => false
  | .andImm _ _ _ => false
  | .not _ _ => false
  | .br _ _ _ _ => false
  | .jmp _ => false
  | .jsr _ => false
  | .jsrr _ => false
  | .ld _ _ => true
  | .ldi _ _ => true
  | .ldr _ _ _ => true
  | .lea _ _ => false
  | .st _ _ => false
  | .sti _ _ => true
  | .str _ _ _ => false
  | .trapGetc => true
  | .trapOut => false
  | .trapPuts => true
  | .trapIn => true
  | .trapPutsp => true
  | .trapHalt => false
  | .trapUnsupported _ => false
  | .rti => false
  | .res => false

/-- The model's invariant: memory in canonical form (the model's own form, log entry 10), no more codes
delivered than emitted (R27), everything delivered once the run has ended by HALT (R27, R133), and a step in
progress only while Running, of an instruction that can hold (R73, R104). -/
def State.inv (s : State) : Prop :=
  Memory.wf s.mem = true ∧ s.flushed ≤ s.out.length ∧ (s.status = .halted → s.flushed = s.out.length) ∧
    ∀ i, s.held = some i → s.status = .running ∧ canHold i = true

end Sys2Proof.Machine
end

