-- ==== Sys2Proof/Certificates/Slice0/Obligations.lean ====
section
/-! DEFINITION. The statements for the provers, and the few predicates that they share. Each docstring names the rule of
spec/ that the statement formalises. In a statement about `exec`, PC of the state is already PC' (R74; log entry 17). The
bit positions, the opcode numbers and the trap vectors in the decoding clauses are the spec's decisions D2, D3 and D4
(log entry 11). -/

open Sys2Proof Sys2Proof.Machine

namespace Sys2Proof.Claims

/-- R79, in numbers: Z for 0, N when bit 15 is set, P otherwise. -/
def condOf (v : Word) : Flag :=
  if v.toNat = 0 then .z else if 32768 ≤ v.toNat then .n else .p

/-- The three bits of a register field (R56). -/
def f3 (r : Reg) : BitVec 3 := BitVec.ofNat 3 r.val

/-- Bits 7..0 of a word as a number's residue (R9, R43). -/
def low8 (w : Word) : Byte := BitVec.ofNat 8 w.toNat

/-- Bits 15..8 of a word (R9, R43). -/
def high8 (w : Word) : Byte := BitVec.ofNat 8 (w.toNat / 256)

/-- Every cell reads as before. -/
def SameCells (s t : State) : Prop := ∀ a : Word, t.cell a = s.cell a

/-- Every cell other than `a` reads as before. -/
def SameCellsBut (a : Word) (s t : State) : Prop := ∀ b : Word, b ≠ a → t.cell b = s.cell b

/-- Every register is as before. -/
def SameRegs (s t : State) : Prop := ∀ r : Reg, t.getReg r = s.getReg r

/-- Every register other than `d` is as before. -/
def SameRegsBut (d : Reg) (s t : State) : Prop := ∀ r : Reg, r ≠ d → t.getReg r = s.getReg r

/-- The status and the output are as before. -/
def SameRun (s t : State) : Prop := t.status = s.status ∧ t.out = s.out ∧ t.flushed = s.flushed

/-- `dr` takes the value `v` and COND its flag (R80); every other register, PC, the status and the output are
as before. -/
def Defines (dr : Reg) (v : Word) (s t : State) : Prop :=
  t.getReg dr = v ∧ t.cond = condOf v ∧ SameRegsBut dr s t ∧ t.pc = s.pc ∧ SameRun s t

/-- The whole effect of a flag-defining instruction that reads no memory. -/
def Computes (dr : Reg) (v : Word) (s t : State) : Prop :=
  Defines dr v s t ∧ SameCells s t ∧ t.input = s.input ∧ t.held = s.held

/-- The whole effect of a load that polls nothing: as `Computes`, and the instruction is complete. -/
def Loads (dr : Reg) (v : Word) (s t : State) : Prop :=
  Defines dr v s t ∧ SameCells s t ∧ t.input = s.input ∧ t.held = none

/-- PC takes the value `target`; everything else is as before. -/
def Jumps (target : Word) (s t : State) : Prop :=
  t.pc = target ∧ SameRegs s t ∧ t.cond = s.cond ∧ SameCells s t ∧ SameRun s t ∧ t.input = s.input ∧
    t.held = s.held

/-- R7 takes the value PC', PC the value `target`; everything else is as before, COND too. -/
def Calls (target : Word) (s t : State) : Prop :=
  t.pc = target ∧ t.getReg 7 = s.pc ∧ SameRegsBut 7 s t ∧ t.cond = s.cond ∧ SameCells s t ∧ SameRun s t ∧
    t.input = s.input ∧ t.held = s.held

/-- The cell at `a` takes the value `v`; everything else is as before, but for whether a step is in progress, which the
statements say beside it. -/
def Stores (a v : Word) (s t : State) : Prop :=
  t.cell a = v ∧ SameCellsBut a s t ∧ SameRegs s t ∧ t.cond = s.cond ∧ t.pc = s.pc ∧ SameRun s t ∧
    t.input = s.input

/-- What KBSR reads as after a poll that took the event (R38). -/
def polledKbsr : InputEvent → Word
  | .char _ => 0x8000#16
  | .eof => 0x0000#16

/-- What the cell `a` holds after a poll that took the event, from what it held before (R38). -/
def cellAfterPoll (e : InputEvent) (s : State) (a : Word) : Word :=
  match e with
  | .char b => if a = 0xFE00#16 then 0x8000#16 else if a = 0xFE02#16 then BitVec.ofNat 16 b.toNat else s.cell a
  | .eof => if a = 0xFE00#16 then 0x0000#16 else s.cell a

/-- The state in which a load, LDI or STI waits for an event: the PC increment is the one effect made (R73; log entry
2). -/
def waiting (i : Instr) (s : State) : State := { s with held := some i }

/-- The value of a register after the optional link of TRAP (R105). -/
def linkedReg (s : State) (r : Reg) : Word :=
  if r = 7 ∧ Config.trapLinksR7 = true then s.pc else s.getReg r

/-- A TRAP that writes no register but the optional link: registers, COND and PC (R105, R106). -/
def TrapKeeps (s t : State) : Prop :=
  (∀ r : Reg, t.getReg r = linkedReg s r) ∧ t.cond = s.cond ∧ t.pc = s.pc

/-- A TRAP that puts `v` into R0: registers, COND and PC (R107, R110). -/
def TrapReceives (v : Word) (s t : State) : Prop :=
  t.getReg 0 = v ∧ t.cond = condOf v ∧ (∀ r : Reg, r ≠ 0 → t.getReg r = linkedReg s r) ∧ t.pc = s.pc

/-- A TRAP waits for an event: the optional link and the codes are the effects made since the fetch (R73). -/
def TrapWaits (i : Instr) (codes : List Byte) (s t : State) : Prop :=
  TrapKeeps s t ∧ SameCells s t ∧ t.status = s.status ∧ t.flushed = s.flushed ∧ t.input = s.input ∧
    t.out = s.out ++ codes ∧ t.held = some i

/-- The prompt that IN emits in this step: none when it has held, because it has then emitted it (R73, R110). -/
def promptLeft (s : State) : List Byte := if s.held = some .trapIn then [] else Config.inPrompt

/-- The codes that an instruction has emitted when it first holds (R73). -/
def codesAtHold (i : Instr) : List Byte := if i = .trapIn then Config.inPrompt else []

/-- The TRAP instructions that can hold (R104). -/
def isHoldingTrap (i : Instr) : Bool := i == .trapGetc || i == .trapPuts || i == .trapIn || i == .trapPutsp

/-- The loop of PUTS and PUTSP as R109 and R111 write it: from the address `a` and the state `s`, it ends in
`some t`, or holds at a read (`none`). -/
inductive Walk (codes : Word → List Byte) : Word → State → Option State → Prop where
  | holds {a : Word} {s : State} : s.memRead a = none → Walk codes a s none
  | ends {a : Word} {s t : State} : s.memRead a = some (0#16, t) → Walk codes a s (some t)
  | emits {a c : Word} {s t : State} {r : Option State} : s.memRead a = some (c, t) → c ≠ 0#16 →
      Walk codes (a + 1#16) { t with out := t.out ++ codes c } r → Walk codes a s r

/-- The codes of one cell of PUTSP (R111). -/
def pairCodes (c : Word) : List Byte := if high8 c = 0#8 then [low8 c] else [low8 c, high8 c]

/-- A string at R0: the non-zero cells `cs`, then a zero cell, none of them at KBSR. -/
def StringAtR0 (s : State) (cs : List Word) : Prop :=
  (∀ c ∈ cs, c ≠ 0#16) ∧
  (∀ k : Nat, ∀ h : k < cs.length, s.cell (s.getReg 0 + BitVec.ofNat 16 k) = cs[k]) ∧
  s.cell (s.getReg 0 + BitVec.ofNat 16 cs.length) = 0#16 ∧
  ∀ k : Nat, k ≤ cs.length → s.getReg 0 + BitVec.ofNat 16 k ≠ 0xFE00#16

/-- The bits that no field of the word's row uses (R65). -/
def ignoredBits (w : Word) : Word :=
  match w.toNat / 4096 with
  | 1 => if w.getLsbD 5 then 0 else 0x0018
  | 5 => if w.getLsbD 5 then 0 else 0x0018
  | 9 => 0x003F
  | 12 => 0x0E3F
  | 4 => if w.getLsbD 11 then 0 else 0x063F
  | 15 => 0x0F00
  | 8 => 0x0FFF
  | 13 => 0x0FFF
  | _ => 0

/-- The opcode numbers (R61). -/
def opNumber : Op → Nat
  | .BR => 0x0 | .ADD => 0x1 | .LD => 0x2 | .ST => 0x3 | .JSR => 0x4 | .AND => 0x5 | .LDR => 0x6 | .STR => 0x7
  | .RTI => 0x8 | .NOT => 0x9 | .LDI => 0xA | .STI => 0xB | .JMP => 0xC | .RES => 0xD | .LEA => 0xE | .TRAP => 0xF

/-- `sext_N(v)` as R58 writes it, for a field of `n` bits. -/
def sextRule (n : Nat) (v : Nat) : Word :=
  if v / 2 ^ (n - 1) % 2 = 1 then (BitVec.ofNat 16 v ||| (0xFFFF#16 <<< n)) &&& 0xFFFF#16 else BitVec.ofNat 16 v

/-- The instructions that apply `setcc` (R19). -/
def writesCond (i : Instr) : Bool :=
  match i with
  | .add _ _ _ => true
  | .addImm _ _ _ => true
  | .and _ _ _ => true
  | .andImm _ _ _ => true
  | .not _ _ => true
  | .br _ _ _ _ => false
  | .jmp _ => false
  | .jsr _ => false
  | .jsrr _ => false
  | .ld _ _ => true
  | .ldi _ _ => true
  | .ldr _ _ _ => true
  | .lea _ _ => true
  | .st _ _ => false
  | .sti _ _ => false
  | .str _ _ _ => false
  | .trapGetc => true
  | .trapOut => false
  | .trapPuts => false
  | .trapIn => true
  | .trapPutsp => false
  | .trapHalt => false
  | .trapUnsupported _ => false
  | .rti => false
  | .res => false

/-- The general registers that an instruction may write (R15). -/
def mayWriteReg (i : Instr) (r : Reg) : Prop :=
  match i with
  | .add dr _ _ => r = dr
  | .addImm dr _ _ => r = dr
  | .and dr _ _ => r = dr
  | .andImm dr _ _ => r = dr
  | .not dr _ => r = dr
  | .br _ _ _ _ => False
  | .jmp _ => False
  | .jsr _ => r = 7
  | .jsrr _ => r = 7
  | .ld dr _ => r = dr
  | .ldi dr _ => r = dr
  | .ldr dr _ _ => r = dr
  | .lea dr _ => r = dr
  | .st _ _ => False
  | .sti _ _ => False
  | .str _ _ _ => False
  | .trapGetc => r = 0 ∨ (r = 7 ∧ Config.trapLinksR7 = true)
  | .trapOut => r = 7 ∧ Config.trapLinksR7 = true
  | .trapPuts => r = 7 ∧ Config.trapLinksR7 = true
  | .trapIn => r = 0 ∨ (r = 7 ∧ Config.trapLinksR7 = true)
  | .trapPutsp => r = 7 ∧ Config.trapLinksR7 = true
  | .trapHalt => r = 7 ∧ Config.trapLinksR7 = true
  | .trapUnsupported _ => r = 7 ∧ Config.trapLinksR7 = true
  | .rti => False
  | .res => False

/-- The cell that a store instruction writes, from the state it executes in (R100, R101, R102). -/
def storesAt (i : Instr) (s : State) (a : Word) : Prop :=
  match i with
  | .st _ offset9 => a = s.pcRel9 offset9
  | .sti _ offset9 => ∃ t, s.memRead (s.pcRel9 offset9) = some (a, t)
  | .str _ baseR offset6 => a = s.baseRel6 baseR offset6
  | _ => False

/-- BR, JMP, JSR and JSRR. -/
def isControl (i : Instr) : Bool :=
  match i with
  | .br _ _ _ _ => true
  | .jmp _ => true
  | .jsr _ => true
  | .jsrr _ => true
  | _ => false

/-- The instructions whose execution is a fatal condition (R116). -/
def isFatal (i : Instr) : Bool :=
  match i with
  | .trapUnsupported _ => true
  | .rti => true
  | .res => true
  | _ => false

/-- The bytes of a program image, each word big-endian (R135). -/
def imageBytes : List Word → List Byte
  | [] => []
  | w :: rest => high8 w :: low8 w :: imageBytes rest

end Sys2Proof.Claims

open Sys2Proof.Claims

/-! ## Encoding -/

/-- Words of the spec's own examples (95_test_vectors.md W3, W4, O11, B6, J2, J4, J6, L2, W6, L6, L8, L12, L13, L15, W7,
T12, T13, X1, X2) decode to the instructions they stand for. A sanity statement. -/
def Obligations.ExampleWordsDecode : Prop :=
  decode 0x1465 = .addImm 2 1 5 ∧ decode 0x1042 = .add 0 1 2 ∧ decode 0x5443 = .and 2 1 3 ∧
  decode 0x52B0 = .andImm 1 2 0b10000 ∧ decode 0x903F = .not 0 0 ∧ decode 0x0300 = .br false false true 0x100 ∧
  decode 0xC1C0 = .jmp 7 ∧ decode 0x4BFF = .jsr 0x3FF ∧ decode 0x40C0 = .jsrr 3 ∧ decode 0x2204 = .ld 1 4 ∧
  decode 0xA602 = .ldi 3 2 ∧ decode 0x6241 = .ldr 1 1 1 ∧ decode 0xE007 = .lea 0 7 ∧ decode 0x3000 = .st 0 0 ∧
  decode 0xB401 = .sti 2 1 ∧ decode 0x7060 = .str 0 1 0b100000 ∧ decode 0xF022 = .trapPuts ∧
  decode 0xFF25 = .trapHalt ∧ decode 0xF026 = .trapUnsupported 0x26 ∧ decode 0x8000 = .rti ∧ decode 0xDFFF = .res

/-- The decoder reads back every field of every instruction that the encoder writes. -/
def Obligations.DecodeOfEncode : Prop :=
  ∀ i : Instr, WellFormed i = true → decode (encode i) = i

/-- Every word decodes, to an instruction (R62), and encoding that instruction gives back every bit of the word
but those that its row ignores (R65): no field is dropped or moved. -/
def Obligations.EncodeOfDecodeKeepsFields : Prop :=
  ∀ w : Word, WellFormed (decode w) = true ∧ (encode (decode w) ^^^ w) &&& ~~~ (ignoredBits w) = 0

/-- R65: a word that differs from another only in bits that no field uses executes as the same instruction (the spec's
decision D7, log entry 11). -/
def Obligations.IgnoredBitsDoNotMatter : Prop :=
  ∀ w v : Word, (w ^^^ v) &&& ~~~ (ignoredBits w) = 0 → decode v = decode w

/-- R63 with R55, R56, R58, R59 and R61: the fields of the decoder's record, in numbers. -/
def Obligations.DecoderRecord : Prop :=
  ∀ w : Word, opNumber (decodeFields w).op = w.toNat / 4096 ∧
    (decodeFields w).r11_9.val = w.toNat / 512 % 8 ∧ (decodeFields w).r8_6.val = w.toNat / 64 % 8 ∧
    (decodeFields w).r2_0.val = w.toNat % 8 ∧ ((decodeFields w).bit5 = true ↔ w.toNat / 32 % 2 = 1) ∧
    ((decodeFields w).bit11 = true ↔ w.toNat / 2048 % 2 = 1) ∧
    (decodeFields w).imm5 = sextRule 5 (w.toNat % 32) ∧ (decodeFields w).off6 = sextRule 6 (w.toNat % 64) ∧
    (decodeFields w).off9 = sextRule 9 (w.toNat % 512) ∧ (decodeFields w).off11 = sextRule 11 (w.toNat % 2048) ∧
    (decodeFields w).trapvect8.toNat = w.toNat % 256

/-- R58: sign extension of the four field widths; the result is the field read as a signed number. -/
def Obligations.SignExtension : Prop :=
  (∀ v : BitVec 5, sext5 v = sextRule 5 v.toNat ∧ (sext5 v).toInt = v.toInt) ∧
  (∀ v : BitVec 6, sext6 v = sextRule 6 v.toNat ∧ (sext6 v).toInt = v.toInt) ∧
  (∀ v : BitVec 9, sext9 v = sextRule 9 v.toNat ∧ (sext9 v).toInt = v.toInt) ∧
  (∀ v : BitVec 11, sext11 v = sextRule 11 v.toNat ∧ (sext11 v).toInt = v.toInt)

/-- R105 and R66: the trap vectors, with I[11:8] ignored. -/
def Obligations.TrapVectors : Prop :=
  ∀ (x : BitVec 4) (v : Byte),
    (v = 0x20 → decode (0b1111#4 ++ x ++ v) = .trapGetc) ∧ (v = 0x21 → decode (0b1111#4 ++ x ++ v) = .trapOut) ∧
    (v = 0x22 → decode (0b1111#4 ++ x ++ v) = .trapPuts) ∧ (v = 0x23 → decode (0b1111#4 ++ x ++ v) = .trapIn) ∧
    (v = 0x24 → decode (0b1111#4 ++ x ++ v) = .trapPutsp) ∧ (v = 0x25 → decode (0b1111#4 ++ x ++ v) = .trapHalt) ∧
    (v.toNat < 0x20 ∨ 0x25 < v.toNat → decode (0b1111#4 ++ x ++ v) = .trapUnsupported v)

/-! ## Operate -/

/-- R85: ADD, register mode. -/
def Obligations.AddRegister : Prop :=
  (∀ (dr sr1 sr2 : Reg) (x : BitVec 2),
    decode (0b0001#4 ++ f3 dr ++ f3 sr1 ++ 0b0#1 ++ x ++ f3 sr2) = .add dr sr1 sr2) ∧
  ∀ (dr sr1 sr2 : Reg) (s : State), ∃ t, exec (.add dr sr1 sr2) s = .next t ∧
    Computes dr (BitVec.ofNat 16 ((s.getReg sr1).toNat + (s.getReg sr2).toNat)) s t

/-- R86: ADD, immediate mode. -/
def Obligations.AddImmediate : Prop :=
  (∀ (dr sr1 : Reg) (imm5 : BitVec 5),
    decode (0b0001#4 ++ f3 dr ++ f3 sr1 ++ 0b1#1 ++ imm5) = .addImm dr sr1 imm5) ∧
  ∀ (dr sr1 : Reg) (imm5 : BitVec 5) (s : State), ∃ t, exec (.addImm dr sr1 imm5) s = .next t ∧
    Computes dr (BitVec.ofInt 16 ((s.getReg sr1).toInt + imm5.toInt)) s t

/-- R87: AND, register mode, bit by bit. -/
def Obligations.AndRegister : Prop :=
  (∀ (dr sr1 sr2 : Reg) (x : BitVec 2),
    decode (0b0101#4 ++ f3 dr ++ f3 sr1 ++ 0b0#1 ++ x ++ f3 sr2) = .and dr sr1 sr2) ∧
  ∀ (dr sr1 sr2 : Reg) (s : State), ∃ t v, exec (.and dr sr1 sr2) s = .next t ∧ Computes dr v s t ∧
    ∀ k < 16, v.getLsbD k = ((s.getReg sr1).getLsbD k && (s.getReg sr2).getLsbD k)

/-- R88: AND, immediate mode; a negative imm5 keeps bits 15..5 of the source, any other clears them. -/
def Obligations.AndImmediate : Prop :=
  (∀ (dr sr1 : Reg) (imm5 : BitVec 5),
    decode (0b0101#4 ++ f3 dr ++ f3 sr1 ++ 0b1#1 ++ imm5) = .andImm dr sr1 imm5) ∧
  ∀ (dr sr1 : Reg) (imm5 : BitVec 5) (s : State), ∃ t v, exec (.andImm dr sr1 imm5) s = .next t ∧ Computes dr v s t ∧
    (∀ k < 5, v.getLsbD k = ((s.getReg sr1).getLsbD k && imm5.getLsbD k)) ∧
    (∀ k, 5 ≤ k → k < 16 → v.getLsbD k = ((s.getReg sr1).getLsbD k && imm5.getLsbD 4))

/-- R89: NOT, the complement (R83: `-a - 1`), I[5:0] ignored. -/
def Obligations.NotComplements : Prop :=
  (∀ (dr sr : Reg) (x : BitVec 6), decode (0b1001#4 ++ f3 dr ++ f3 sr ++ x) = .not dr sr) ∧
  ∀ (dr sr : Reg) (s : State), ∃ t, exec (.not dr sr) s = .next t ∧
    Computes dr (BitVec.ofNat 16 (65535 - (s.getReg sr).toNat)) s t

/-! ## Control transfer -/

/-- R90: BR, taken if and only if one of its condition bits names COND, in both of the rule's spellings. -/
def Obligations.BranchRule : Prop :=
  (∀ (n z p : Bool) (off : BitVec 9),
    decode (0b0000#4 ++ BitVec.ofBool n ++ BitVec.ofBool z ++ BitVec.ofBool p ++ off) = .br n z p off) ∧
  (∀ (n z p : Bool) (c : Flag),
    ((n = true ∧ c = .n) ∨ (z = true ∧ c = .z) ∨ (p = true ∧ c = .p)) ↔
      ((BitVec.ofBool n ++ BitVec.ofBool z ++ BitVec.ofBool p : BitVec 3) &&& c.bits) ≠ 0) ∧
  ∀ (n z p : Bool) (off : BitVec 9) (s : State), ∃ t, exec (.br n z p off) s = .next t ∧
    (((n = true ∧ s.cond = .n) ∨ (z = true ∧ s.cond = .z) ∨ (p = true ∧ s.cond = .p)) →
      Jumps (BitVec.ofInt 16 (s.pc.toInt + off.toInt)) s t) ∧
    (¬ ((n = true ∧ s.cond = .n) ∨ (z = true ∧ s.cond = .z) ∨ (p = true ∧ s.cond = .p)) → t = s)

/-- R91: JMP, and RET; I[11:9] and I[5:0] ignored. -/
def Obligations.JumpRule : Prop :=
  (∀ (x : BitVec 3) (baseR : Reg) (y : BitVec 6), decode (0b1100#4 ++ x ++ f3 baseR ++ y) = .jmp baseR) ∧
  decode 0xC1C0 = .jmp 7 ∧
  ∀ (baseR : Reg) (s : State), ∃ t, exec (.jmp baseR) s = .next t ∧ Jumps (s.getReg baseR) s t

/-- R92: JSR. -/
def Obligations.CallPcRelative : Prop :=
  (∀ off : BitVec 11, decode (0b01001#5 ++ off) = .jsr off) ∧
  ∀ (off : BitVec 11) (s : State), ∃ t, exec (.jsr off) s = .next t ∧
    Calls (BitVec.ofInt 16 (s.pc.toInt + off.toInt)) s t

/-- R93: JSRR, PC' plus the base register, which is read after the link is written (the spec's decision D9, log entry
11). -/
def Obligations.CallRegister : Prop :=
  (∀ (x : BitVec 2) (baseR : Reg) (y : BitVec 6), decode (0b01000#5 ++ x ++ f3 baseR ++ y) = .jsrr baseR) ∧
  ∀ (baseR : Reg) (s : State), ∃ t, exec (.jsrr baseR) s = .next t ∧
    Calls (if baseR = 7 then s.pc + s.pc else s.pc + s.getReg baseR) s t

/-! ## Loads, stores, LEA -/

/-- R96: LD. The last clause is the hold, with the PC increment alone made (R42, R73; log entry 2). -/
def Obligations.LoadPcRelative : Prop :=
  (∀ (dr : Reg) (off : BitVec 9), decode (0b0010#4 ++ f3 dr ++ off) = .ld dr off) ∧
  ∀ (dr : Reg) (off : BitVec 9) (s : State) (ea : Word), ea = BitVec.ofInt 16 (s.pc.toInt + off.toInt) →
    (ea ≠ 0xFE00#16 → ∃ t, exec (.ld dr off) s = .next t ∧ Loads dr (s.cell ea) s t) ∧
    (ea = 0xFE00#16 → ∀ e rest, s.input = e :: rest → ∃ t, exec (.ld dr off) s = .next t ∧
      Defines dr (polledKbsr e) s t ∧ (∀ a, t.cell a = cellAfterPoll e s a) ∧ t.input = rest ∧ t.held = none) ∧
    (ea = 0xFE00#16 → s.input = [] → exec (.ld dr off) s = .next (waiting (.ld dr off) s))

/-- R97: LDI. Both the pointer read and the data read can poll; KBSR polled as the pointer gives 0x8000 or 0x0000,
and the data read is then plain. The last clause is the hold, with the PC increment
alone made (R42, R73; log entry 2). -/
def Obligations.LoadIndirect : Prop :=
  (∀ (dr : Reg) (off : BitVec 9), decode (0b1010#4 ++ f3 dr ++ off) = .ldi dr off) ∧
  ∀ (dr : Reg) (off : BitVec 9) (s : State) (pa : Word), pa = BitVec.ofInt 16 (s.pc.toInt + off.toInt) →
    (pa ≠ 0xFE00#16 → s.cell pa ≠ 0xFE00#16 → ∃ t, exec (.ldi dr off) s = .next t ∧
      Loads dr (s.cell (s.cell pa)) s t) ∧
    (pa ≠ 0xFE00#16 → s.cell pa = 0xFE00#16 → ∀ e rest, s.input = e :: rest →
      ∃ t, exec (.ldi dr off) s = .next t ∧
        Defines dr (polledKbsr e) s t ∧ (∀ a, t.cell a = cellAfterPoll e s a) ∧ t.input = rest ∧ t.held = none) ∧
    (pa = 0xFE00#16 → ∀ e rest, s.input = e :: rest → ∃ t, exec (.ldi dr off) s = .next t ∧
      Defines dr (s.cell (polledKbsr e)) s t ∧ (∀ a, t.cell a = cellAfterPoll e s a) ∧ t.input = rest ∧ t.held = none) ∧
    (pa = 0xFE00#16 ∨ s.cell pa = 0xFE00#16 → s.input = [] →
      exec (.ldi dr off) s = .next (waiting (.ldi dr off) s))

/-- R98: LDR; the base is read before DR is written. The last clause is the hold, with the PC increment
alone made (R42, R73; log entry 2). -/
def Obligations.LoadBaseOffset : Prop :=
  (∀ (dr baseR : Reg) (off : BitVec 6), decode (0b0110#4 ++ f3 dr ++ f3 baseR ++ off) = .ldr dr baseR off) ∧
  ∀ (dr baseR : Reg) (off : BitVec 6) (s : State) (ea : Word),
    ea = BitVec.ofInt 16 ((s.getReg baseR).toInt + off.toInt) →
    (ea ≠ 0xFE00#16 → ∃ t, exec (.ldr dr baseR off) s = .next t ∧ Loads dr (s.cell ea) s t) ∧
    (ea = 0xFE00#16 → ∀ e rest, s.input = e :: rest → ∃ t, exec (.ldr dr baseR off) s = .next t ∧
      Defines dr (polledKbsr e) s t ∧ (∀ a, t.cell a = cellAfterPoll e s a) ∧ t.input = rest ∧ t.held = none) ∧
    (ea = 0xFE00#16 → s.input = [] → exec (.ldr dr baseR off) s = .next (waiting (.ldr dr baseR off) s))

/-- R99: LEA computes the address, reads no memory, never polls, and writes COND. -/
def Obligations.LoadEffectiveAddress : Prop :=
  (∀ (dr : Reg) (off : BitVec 9), decode (0b1110#4 ++ f3 dr ++ off) = .lea dr off) ∧
  ∀ (dr : Reg) (off : BitVec 9) (s : State), ∃ t, exec (.lea dr off) s = .next t ∧
    Computes dr (BitVec.ofInt 16 (s.pc.toInt + off.toInt)) s t

/-- R100: ST, the keyboard cells included, without a poll. -/
def Obligations.StorePcRelative : Prop :=
  (∀ (sr : Reg) (off : BitVec 9), decode (0b0011#4 ++ f3 sr ++ off) = .st sr off) ∧
  ∀ (sr : Reg) (off : BitVec 9) (s : State), ∃ t, exec (.st sr off) s = .next t ∧
    Stores (BitVec.ofInt 16 (s.pc.toInt + off.toInt)) (s.getReg sr) s t ∧ t.held = s.held

/-- R101: STI. The pointer read can poll, the write never does. The last clause is the hold, with the PC increment
alone made (R42, R73; log entry 2). -/
def Obligations.StoreIndirect : Prop :=
  (∀ (sr : Reg) (off : BitVec 9), decode (0b1011#4 ++ f3 sr ++ off) = .sti sr off) ∧
  ∀ (sr : Reg) (off : BitVec 9) (s : State) (pa : Word), pa = BitVec.ofInt 16 (s.pc.toInt + off.toInt) →
    (pa ≠ 0xFE00#16 → ∃ t, exec (.sti sr off) s = .next t ∧ Stores (s.cell pa) (s.getReg sr) s t ∧
      t.held = none) ∧
    (pa = 0xFE00#16 → ∀ e rest, s.input = e :: rest → ∃ t, exec (.sti sr off) s = .next t ∧
      t.cell (polledKbsr e) = s.getReg sr ∧ (∀ a, a ≠ polledKbsr e → t.cell a = cellAfterPoll e s a) ∧
      t.input = rest ∧ SameRegs s t ∧ t.cond = s.cond ∧ t.pc = s.pc ∧ SameRun s t ∧ t.held = none) ∧
    (pa = 0xFE00#16 → s.input = [] → exec (.sti sr off) s = .next (waiting (.sti sr off) s))

/-- R102: STR. -/
def Obligations.StoreBaseOffset : Prop :=
  (∀ (sr baseR : Reg) (off : BitVec 6), decode (0b0111#4 ++ f3 sr ++ f3 baseR ++ off) = .str sr baseR off) ∧
  ∀ (sr baseR : Reg) (off : BitVec 6) (s : State), ∃ t, exec (.str sr baseR off) s = .next t ∧
    Stores (BitVec.ofInt 16 ((s.getReg baseR).toInt + off.toInt)) (s.getReg sr) s t ∧ t.held = s.held

/-! ## Traps -/

/-- R107: GETC, for a character and at end of input (R0 is then the free value `eof_r0`); it emits nothing. While it
holds, the optional link is made (R42, R73, R104; log entry 2). -/
def Obligations.GetcReadsOneCharacter : Prop :=
  ∀ s : State,
    (∀ b rest, s.input = .char b :: rest → ∃ t, exec .trapGetc s = .next t ∧
      TrapReceives (BitVec.ofNat 16 b.toNat) s t ∧ SameCells s t ∧ SameRun s t ∧ t.input = rest ∧ t.held = none) ∧
    (∀ rest, s.input = .eof :: rest → ∃ t, exec .trapGetc s = .next t ∧ TrapReceives Config.eofR0 s t ∧
      t.cell 0xFE00#16 = 0#16 ∧ SameCellsBut 0xFE00#16 s t ∧ SameRun s t ∧ t.input = rest ∧ t.held = none) ∧
    (s.input = [] → ∃ t, exec .trapGetc s = .next t ∧ TrapWaits .trapGetc [] s t)

/-- R108: OUT emits bits 7..0 of R0. -/
def Obligations.OutWritesOneCharacter : Prop :=
  (∀ x : BitVec 4, decode (0b1111#4 ++ x ++ 0x21#8) = .trapOut) ∧
  ∀ s : State, ∃ t, exec .trapOut s = .next t ∧ t.out = s.out ++ [low8 (s.getReg 0)] ∧ TrapKeeps s t ∧
    SameCells s t ∧ t.status = s.status ∧ t.flushed = s.flushed ∧ t.input = s.input ∧ t.held = s.held

/-- R109: PUTS is the loop of the rule, whatever its length and whatever it reads, KBSR included: the state it ends in,
with nothing changed but the output, the optional link and what its polls did. A walk that holds waits
with the link alone made (R73; log entry 2). -/
def Obligations.PutsIsTheLoop : Prop :=
  (∀ x : BitVec 4, decode (0b1111#4 ++ x ++ 0x22#8) = .trapPuts) ∧
  (∀ s : State, ∃ r, Walk (fun c => [low8 c]) (s.getReg 0) s.trapLink r) ∧
  (∀ (s t : State), Walk (fun c => [low8 c]) (s.getReg 0) s.trapLink (some t) →
    ∃ u, exec .trapPuts s = .next u ∧ u = { t with held := none } ∧ TrapKeeps s u ∧ u.status = s.status ∧
      u.flushed = s.flushed ∧ ∀ a : Word, a ≠ 0xFE00#16 → a ≠ 0xFE02#16 → u.cell a = s.cell a) ∧
  (∀ s : State, Walk (fun c => [low8 c]) (s.getReg 0) s.trapLink none → ∃ t, exec .trapPuts s = .next t ∧
    TrapWaits .trapPuts [] s t)

/-- R109, W7: PUTS on a zero-terminated string that does not cross KBSR emits exactly its characters. -/
def Obligations.PutsRoundTrip : Prop :=
  ∀ (s : State) (cs : List Word), StringAtR0 s cs → ∃ t, exec .trapPuts s = .next t ∧
    t.out = s.out ++ cs.map low8 ∧ TrapKeeps s t ∧ SameCells s t ∧ t.status = s.status ∧ t.flushed = s.flushed ∧
    t.input = s.input ∧ t.held = none

/-- R110: IN emits the prompt (free, log entry 6), once, before its read holds; it echoes a character and puts it into R0;
at end of input it echoes nothing and R0 is free (log entry 5). While it holds, the prompt is in the output and the
optional link is made (R73; log entry 2). -/
def Obligations.InReadsAndEchoes : Prop :=
  ∀ s : State,
    (∀ b rest, s.input = .char b :: rest → ∃ t, exec .trapIn s = .next t ∧
      TrapReceives (BitVec.ofNat 16 b.toNat) s t ∧ SameCells s t ∧ t.out = s.out ++ promptLeft s ++ [b] ∧
      t.status = s.status ∧ t.flushed = s.flushed ∧ t.input = rest ∧ t.held = none) ∧
    (∀ rest, s.input = .eof :: rest → ∃ t, exec .trapIn s = .next t ∧ TrapReceives Config.eofR0 s t ∧
      t.cell 0xFE00#16 = 0#16 ∧ SameCellsBut 0xFE00#16 s t ∧ t.out = s.out ++ promptLeft s ∧
      t.status = s.status ∧ t.flushed = s.flushed ∧ t.input = rest ∧ t.held = none) ∧
    (s.input = [] → ∃ t, exec .trapIn s = .next t ∧ TrapWaits .trapIn (promptLeft s) s t)

/-- R111: PUTSP is the loop of the rule, as `PutsIsTheLoop` says of PUTS. -/
def Obligations.PutspIsTheLoop : Prop :=
  (∀ x : BitVec 4, decode (0b1111#4 ++ x ++ 0x24#8) = .trapPutsp) ∧
  (∀ s : State, ∃ r, Walk pairCodes (s.getReg 0) s.trapLink r) ∧
  (∀ (s t : State), Walk pairCodes (s.getReg 0) s.trapLink (some t) →
    ∃ u, exec .trapPutsp s = .next u ∧ u = { t with held := none } ∧ TrapKeeps s u ∧ u.status = s.status ∧
      u.flushed = s.flushed ∧ ∀ a : Word, a ≠ 0xFE00#16 → a ≠ 0xFE02#16 → u.cell a = s.cell a) ∧
  (∀ s : State, Walk pairCodes (s.getReg 0) s.trapLink none → ∃ t, exec .trapPutsp s = .next t ∧
    TrapWaits .trapPutsp [] s t)

/-- R111: PUTSP on a zero-terminated string that does not cross KBSR emits each cell's low byte, then its high byte
unless that is null. -/
def Obligations.PutspRoundTrip : Prop :=
  ∀ (s : State) (cs : List Word), StringAtR0 s cs → ∃ t, exec .trapPutsp s = .next t ∧
    t.out = s.out ++ cs.flatMap pairCodes ∧ TrapKeeps s t ∧ SameCells s t ∧ t.status = s.status ∧
    t.flushed = s.flushed ∧ t.input = s.input ∧ t.held = none

/-- Every walk of PUTS and PUTSP is decided within the bound that the model gives it: more fuel changes nothing, because
each lap of the address space reads KBSR once (R38, R39, R109, R111; log entry 13). -/
def Obligations.WalkBoundSuffices : Prop :=
  ∀ (codes : Word → List Byte) (n : Nat) (a : Word) (s : State), s.walkFuel ≤ n →
    State.stringWalk codes n a s = State.stringWalk codes s.walkFuel a s

/-- R112: HALT emits the halt message, flushes, and stops. -/
def Obligations.HaltStopsTheRun : Prop :=
  (∀ x : BitVec 4, decode (0b1111#4 ++ x ++ 0x25#8) = .trapHalt) ∧
  ∀ s : State, ∃ t, exec .trapHalt s = .next t ∧ t.status = .halted ∧ t.out = s.out ++ Config.haltMessage ∧
    t.flushed = t.out.length ∧ TrapKeeps s t ∧ SameCells s t ∧ t.input = s.input ∧ t.held = s.held

/-- R113: a TRAP with another vector is the fatal condition UnsupportedTrap, with the link already written. -/
def Obligations.UnsupportedTrapIsFatal : Prop :=
  (∀ (x : BitVec 4) (v : Byte), v.toNat < 0x20 ∨ 0x25 < v.toNat →
    decode (0b1111#4 ++ x ++ v) = .trapUnsupported v) ∧
  ∀ (v : Byte) (s : State), ∃ t, exec (.trapUnsupported v) s = .next t ∧
    t.status = .faulted (.unsupportedTrap v (s.pc - 1#16)) ∧ TrapKeeps s t ∧ SameCells s t ∧ t.out = s.out ∧
    t.flushed = s.flushed ∧ t.input = s.input ∧ t.held = s.held

/-! ## Reserved opcodes -/

/-- R114: RTI is the fatal condition UnsupportedOpcode(0x8), and nothing else changes. -/
def Obligations.RtiIsFatal : Prop :=
  (∀ x : BitVec 12, decode (0b1000#4 ++ x) = .rti) ∧
  ∀ s : State, ∃ t, exec .rti s = .next t ∧ t.status = .faulted (.unsupportedOpcode 0x8 (s.pc - 1#16)) ∧
    SameRegs s t ∧ t.cond = s.cond ∧ t.pc = s.pc ∧ SameCells s t ∧ t.out = s.out ∧ t.flushed = s.flushed ∧
    t.input = s.input ∧ t.held = s.held

/-- R115: RES is the fatal condition UnsupportedOpcode(0xD), and nothing else changes. -/
def Obligations.ResIsFatal : Prop :=
  (∀ x : BitVec 12, decode (0b1101#4 ++ x) = .res) ∧
  ∀ s : State, ∃ t, exec .res s = .next t ∧ t.status = .faulted (.unsupportedOpcode 0xD (s.pc - 1#16)) ∧
    SameRegs s t ∧ t.cond = s.cond ∧ t.pc = s.pc ∧ SameCells s t ∧ t.out = s.out ∧ t.flushed = s.flushed ∧
    t.input = s.input ∧ t.held = s.held

/-! ## Memory -/

/-- R37, R38 and R41: MemRead. A read of KBSR takes one event and gives what its poll wrote, or holds when there is no
event; every other read, of KBDR too, changes nothing. That a poll writes the cells whole is the spec's decision D13 (log
entry 11). -/
def Obligations.ReadsAndPolls : Prop :=
  ∀ (s : State) (a : Word),
    (a ≠ 0xFE00#16 → s.memRead a = some (s.cell a, s)) ∧
    (a = 0xFE00#16 → s.input = [] → s.memRead a = none) ∧
    (a = 0xFE00#16 → ∀ e rest, s.input = e :: rest → ∃ t, s.memRead a = some (polledKbsr e, t) ∧
      (∀ b, t.cell b = cellAfterPoll e s b) ∧ t.input = rest ∧ SameRegs s t ∧ t.cond = s.cond ∧ t.pc = s.pc ∧
      SameRun s t ∧ t.held = s.held)

/-- R40: MemWrite sets the cell, the keyboard cells included, polls nothing and changes nothing else. -/
def Obligations.WritesAreUnconditional : Prop :=
  ∀ (s : State) (a v : Word), Stores a v s (s.memWrite a v) ∧ (s.memWrite a v).held = s.held

/-- Two memories in canonical form that read the same at every address of the space are the same list (the model's own
form, log entry 10). -/
def Obligations.CanonicalMemoryIsUnique : Prop :=
  ∀ m n : Memory, Memory.wf m = true → Memory.wf n = true →
    (∀ a : Word, Memory.read a.toNat m = Memory.read a.toNat n) → m = n

/-! ## The step and the run -/

/-- R72: a step is enabled only while Running; with no step in progress it executes the instruction that the word at PC
decodes to, in the state whose PC is one more. The second clause covers the fetch at KBSR, which polls first. -/
def Obligations.StepRunsTheDecodedInstruction : Prop :=
  ∀ s : State,
    (s.status = .running → s.held = none → s.pc ≠ 0xFE00#16 →
      step s = exec (decode (s.cell s.pc)) { s with pc := s.pc + 1#16 }) ∧
    (s.status = .running → s.held = none → ∀ ir u, s.memRead s.pc = some (ir, u) →
      step s = exec (decode ir) { u with pc := s.pc + 1#16 }) ∧
    (s.status ≠ .running → ∀ t, step s ≠ .next t)

/-- The step on a well-formed instruction: where the cell at PC holds its encoding, it runs. -/
def Obligations.StepRunsTheEncodedInstruction : Prop :=
  ∀ (s : State) (i : Instr), s.status = .running → s.held = none → s.pc ≠ 0xFE00#16 → WellFormed i = true →
    s.cell s.pc = encode i → step s = exec i { s with pc := s.pc + 1#16 }

/-- R74: a fetch at KBSR polls. A character makes the word 0x8000, which is RTI; end of input makes it 0x0000, a branch
that is never taken. With no event the step changes nothing: its read comes before the PC increment (R72, R42; log entry
2). -/
def Obligations.FetchAtKbsrPolls : Prop :=
  ∀ s : State, s.status = .running → s.held = none → s.pc = 0xFE00#16 →
    (∀ b rest, s.input = .char b :: rest → ∃ t, step s = .next t ∧
      t.status = .faulted (.unsupportedOpcode 0x8 0xFE00#16) ∧ t.pc = 0xFE01#16 ∧ t.input = rest ∧
      (∀ a, t.cell a = cellAfterPoll (.char b) s a) ∧ SameRegs s t ∧ t.cond = s.cond ∧ t.out = s.out ∧
      t.held = none) ∧
    (∀ rest, s.input = .eof :: rest → ∃ t, step s = .next t ∧ t.status = .running ∧ t.pc = 0xFE01#16 ∧ t.input = rest ∧
      (∀ a, t.cell a = cellAfterPoll .eof s a) ∧ SameRegs s t ∧ t.cond = s.cond ∧ t.out = s.out ∧ t.held = none) ∧
    (s.input = [] → step s = .next s)

/-- R104, R110 and R42: with no event GETC and IN hold, IN with its prompt emitted, wait without a change, and complete
with the first event that the host supplies (here a character), without a second prompt. The field `held` is the model's
(log entry 2). -/
def Obligations.InputTrapsHold : Prop :=
  ∀ s : State, s.status = .running → s.held = none → s.pc ≠ 0xFE00#16 → s.input = [] →
    decode (s.cell s.pc) = .trapGetc ∨ decode (s.cell s.pc) = .trapIn →
    ∃ t, step s = .next t ∧ t.held = some (decode (s.cell s.pc)) ∧
      t.out = s.out ++ codesAtHold (decode (s.cell s.pc)) ∧ step t = .next t ∧
      ∀ b : Byte, ∃ u, step (t.supplyInput (.char b)) = .next u ∧ u.getReg 0 = BitVec.ofNat 16 b.toNat ∧
        u.out = t.out ++ (if decode (s.cell s.pc) = .trapIn then [b] else []) ∧
        u.pc = s.pc + 1#16 ∧ u.input = [] ∧ u.held = none

/-- R73: while a step holds it has made only these effects: the PC increment, the optional link of TRAP, and the prompt of
IN; and only an instruction that can reach InputRead holds. R42: it then waits without a change while there is no event,
and goes on when there is one. The field `held` is the model's (log entry 2). -/
def Obligations.HeldStepEffects : Prop :=
  (∀ (s t : State) (i : Instr), s.held = none → step s = .next t → t.held = some i →
    canHold i = true ∧ i = decode (s.cell s.pc) ∧ t.pc = s.pc + 1#16 ∧
    (∀ r : Reg, t.getReg r =
      if r = 7 ∧ isHoldingTrap i = true ∧ Config.trapLinksR7 = true then s.pc + 1#16 else s.getReg r) ∧
    t.out = s.out ++ codesAtHold i ∧ t.cond = s.cond ∧ SameCells s t ∧ t.status = s.status ∧ t.flushed = s.flushed ∧
    t.input = s.input) ∧
  ∀ (s : State) (i : Instr), s.status = .running → s.held = some i →
    (s.input = [] → step s = .next s) ∧ (s.input ≠ [] → step s = exec i s)

/-- R42 and R73: that a step held first makes no difference to how it ends. After the event has come, the step in progress
answers what the step from the start answers with the event already there. -/
def Obligations.HeldStepEndsAlike : Prop :=
  ∀ (s t : State) (e : InputEvent), s.held = none → step s = .next t → t.held ≠ none →
    step (t.supplyInput e) = step (s.supplyInput e)

/-- R26: a run ends by HALT or by a fatal condition and by nothing else, and no step follows its end. A step that waits or
goes on after a hold ends no run, in every state that meets the invariant. -/
def Obligations.RunEndsOnlyByHaltOrFatal : Prop :=
  (∀ s t : State, step s = .next t → s.status = .running) ∧
  (∀ (s t u : State) (ir : Word), s.held = none → s.fetch = some (ir, u) → step s = .next t →
    (t.status = .halted ↔ decode ir = .trapHalt) ∧
    ((∃ f, t.status = .faulted f) ↔ isFatal (decode ir) = true)) ∧
  (∀ s t : State, s.held = none → s.fetch = none → step s = .next t → t = s) ∧
  (∀ s t : State, s.inv → s.held ≠ none → step s = .next t → t.status = .running)

/-- R15: no instruction writes a general register but those that the rule lists. -/
def Obligations.RegisterWriters : Prop :=
  ∀ (i : Instr) (s t : State) (r : Reg), exec i s = .next t → t.getReg r ≠ s.getReg r → mayWriteReg i r

/-- R19: no instruction writes COND but those that apply setcc. -/
def Obligations.CondWriters : Prop :=
  ∀ (i : Instr) (s t : State), exec i s = .next t → writesCond i = false → t.cond = s.cond

/-- R20: only BR reads COND. Whatever COND was, any other instruction leaves the same registers, memory, PC, status,
output and input. -/
def Obligations.CondIsReadOnlyByBranch : Prop :=
  ∀ (i : Instr) (s t : State) (f : Flag), (∀ n z p off, i ≠ .br n z p off) → exec i s = .next t →
    ∃ u, exec i { s with cond := f } = .next u ∧ { u with cond := f } = { t with cond := f }

/-- R17: an instruction changes PC, after the increment of the fetch, only if it is BR, JMP, JSR or JSRR. -/
def Obligations.PcWriters : Prop :=
  ∀ (i : Instr) (s t : State), exec i s = .next t → t.pc ≠ s.pc → isControl i = true

/-- R38, R40, R41: a cell changes only by the store of ST, STI or STR at its own address, or, for the two keyboard cells,
by an input event that was taken. -/
def Obligations.MemoryWriters : Prop :=
  ∀ (i : Instr) (s t : State) (a : Word), exec i s = .next t → t.cell a ≠ s.cell a →
    storesAt i s a ∨ ((a = 0xFE00#16 ∨ a = 0xFE02#16) ∧ t.input ≠ s.input)

/-- R27 and R28: a step only appends to the output and takes events only from the front of the input, and a step that
ends Halted has delivered all the output. That no other step delivers anything is the model's own (log entry 18): R27
leaves open how far delivery lags while the run is Running. -/
def Obligations.OutputGrowsInputShrinks : Prop :=
  ∀ s t : State, step s = .next t →
    (∃ codes, t.out = s.out ++ codes) ∧ (∃ taken, s.input = taken ++ t.input) ∧
    (t.status = .halted → t.flushed = t.out.length) ∧ (t.status ≠ .halted → t.flushed = s.flushed)

/-- R52: a store into the very next instruction word is what the next step executes. -/
def Obligations.StoreIsSeenByNextFetch : Prop :=
  ∀ (s : State) (sr : Reg), s.status = .running → s.held = none → s.pc ≠ 0xFE00#16 → s.pc + 1#16 ≠ 0xFE00#16 →
    s.cell s.pc = 0b0011#4 ++ f3 sr ++ 0b000000000#9 →
    ∃ t, step s = .next t ∧ t.pc = s.pc + 1#16 ∧ t.cell t.pc = s.getReg sr ∧
      step t = exec (decode (s.getReg sr)) { t with pc := s.pc + 2#16 }

/-- R94: RET as the first instruction of a subroutine returns to the word after the JSR, and the call has changed R7
alone. -/
def Obligations.CallThenReturn : Prop :=
  ∀ (s : State) (off : BitVec 11), s.status = .running → s.held = none → s.pc ≠ 0xFE00#16 →
    s.cell s.pc = 0b01001#5 ++ off →
    BitVec.ofInt 16 (s.pc.toInt + 1 + off.toInt) ≠ 0xFE00#16 →
    s.cell (BitVec.ofInt 16 (s.pc.toInt + 1 + off.toInt)) = 0xC1C0#16 →
    ∃ t, reachesIn 2 s t ∧ t.pc = s.pc + 1#16 ∧ t.getReg 7 = s.pc + 1#16 ∧ SameRegsBut 7 s t ∧ t.cond = s.cond ∧
      SameCells s t ∧ SameRun s t ∧ t.input = s.input ∧ t.held = none

/-- The invariant holds at reset, whatever `gpr_reset` is. -/
def Obligations.InvariantAtReset : Prop := State.reset.inv ∧ ∀ gpr : Reg → Word, (State.resetWith gpr).inv

/-- Every step keeps the invariant: memory in canonical form (log entry 10), no more delivered than emitted, all delivered
once the run has ended by HALT (R27, R133), and a step in progress only while Running and of an instruction that can hold
(R73, R104). -/
def Obligations.StepKeepsInvariant : Prop :=
  ∀ s t : State, s.inv → step s = .next t → t.inv

/-! ## Reset and the host -/

/-- 10_state.md, the reset values: PC, COND and memory as R29, R30 and R32 give them, status and output as R33, which is the
spec's decision D22 and D23 (log entry 11), whatever `gpr_reset` is. That `State.reset` is the one with the free values, and
that no step is in progress, is the model's (log entries 3 and 2). -/
def Obligations.ResetValues : Prop :=
  ∀ gpr : Reg → Word, (State.resetWith gpr).pc = 0x3000#16 ∧ (State.resetWith gpr).cond = .z ∧
    (∀ r : Reg, (State.resetWith gpr).getReg r = gpr r) ∧ (∀ a : Word, (State.resetWith gpr).cell a = 0#16) ∧
    (State.resetWith gpr).status = .running ∧ (State.resetWith gpr).out = [] ∧ (State.resetWith gpr).flushed = 0 ∧
    (State.resetWith gpr).held = none ∧
    State.reset = State.resetWith Config.gprReset

/-- R135: the loader puts the words of a well-formed image into consecutive cells from its first word on, and changes
nothing else. What is well-formed is the spec's decision D25 (log entry 15). -/
def Obligations.ImageLoads : Prop :=
  ∀ (s : State) (origin : Word) (ws : List Word), origin.toNat + ws.length ≤ 65536 →
    ∃ t, s.loadImage (imageBytes (origin :: ws)) = .next t ∧
      (∀ k : Nat, ∀ h : k < ws.length, t.cell (origin + BitVec.ofNat 16 k) = ws[k]) ∧
      (∀ a : Word, (∀ k : Nat, k < ws.length → a ≠ origin + BitVec.ofNat 16 k) → t.cell a = s.cell a) ∧
      SameRegs s t ∧ t.cond = s.cond ∧ t.pc = s.pc ∧ SameRun s t ∧ t.input = s.input ∧ t.held = s.held

/-- D25 and log entry 15, the model's own choice: an image with an odd count of bytes, without its first word, or running
past 0xFFFF is refused. -/
def Obligations.MalformedImageIsRefused : Prop :=
  ∀ (s : State) (bytes : List Byte),
    (bytes.length % 2 = 1 → s.loadImage bytes = .refused .malformedImage) ∧
    (bytes = [] → s.loadImage bytes = .refused .malformedImage) ∧
    (∀ (origin : Word) (ws : List Word), bytes = imageBytes (origin :: ws) → 65536 < origin.toNat + ws.length →
      s.loadImage bytes = .refused .malformedImage)

/-- R134, with R31 and R136: reset, load, entry: the state at the first fetch, for every `gpr_reset` and every
`entry_pc`. -/
def Obligations.LaunchSequence : Prop :=
  ∀ (gpr : Reg → Word) (origin : Word) (ws : List Word) (entryPc : Word), origin.toNat + ws.length ≤ 65536 →
    ∃ t, State.launch gpr (imageBytes (origin :: ws)) entryPc = .next t ∧ t.pc = entryPc ∧ t.cond = .z ∧
      (∀ r : Reg, t.getReg r = gpr r) ∧ t.status = .running ∧ t.out = [] ∧ t.flushed = 0 ∧ t.held = none ∧
      (∀ k : Nat, ∀ h : k < ws.length, t.cell (origin + BitVec.ofNat 16 k) = ws[k]) ∧
      (∀ a : Word, (∀ k : Nat, k < ws.length → a ≠ origin + BitVec.ofNat 16 k) → t.cell a = 0#16)

/-- R133 with R118: after a step that ends the run normally the host has all the output; after a fatal stop it has all
of it if `abort_flushes`, and otherwise what had been flushed before the step. -/
def Obligations.OutputAtTheEndOfARun : Prop :=
  ∀ s t : State, step s = .next t →
    (t.endedNormally → t.hostOutput = t.out) ∧
    (t.endedAbnormally → t.hostOutput = if Config.abortFlushes then t.out else t.out.take s.flushed)
end

