-- ==== Sys2Proof/Laws/State.lean ====
section
/-! SUPPORT. One lemma for each field of State under each named update, and how a register and a cell read after an update. -/

namespace Sys2Proof.Machine

variable (s : State)

@[simp] theorem State.setReg_regs (r : Reg) (v : Word) : (s.setReg r v).regs = s.regs.set r.val v r.isLt := rfl
@[simp] theorem State.setReg_pc (r : Reg) (v : Word) : (s.setReg r v).pc = s.pc := rfl
@[simp] theorem State.setReg_cond (r : Reg) (v : Word) : (s.setReg r v).cond = s.cond := rfl
@[simp] theorem State.setReg_mem (r : Reg) (v : Word) : (s.setReg r v).mem = s.mem := rfl
@[simp] theorem State.setReg_status (r : Reg) (v : Word) : (s.setReg r v).status = s.status := rfl
@[simp] theorem State.setReg_out (r : Reg) (v : Word) : (s.setReg r v).out = s.out := rfl
@[simp] theorem State.setReg_flushed (r : Reg) (v : Word) : (s.setReg r v).flushed = s.flushed := rfl
@[simp] theorem State.setReg_input (r : Reg) (v : Word) : (s.setReg r v).input = s.input := rfl
@[simp] theorem State.setReg_held (r : Reg) (v : Word) : (s.setReg r v).held = s.held := rfl
@[simp] theorem State.setReg_cell (r : Reg) (v : Word) (b : Word) : (s.setReg r v).cell b = s.cell b := rfl

@[simp] theorem State.setPc_regs (target : Word) : (s.setPc target).regs = s.regs := rfl
@[simp] theorem State.setPc_pc (target : Word) : (s.setPc target).pc = target := rfl
@[simp] theorem State.setPc_cond (target : Word) : (s.setPc target).cond = s.cond := rfl
@[simp] theorem State.setPc_mem (target : Word) : (s.setPc target).mem = s.mem := rfl
@[simp] theorem State.setPc_status (target : Word) : (s.setPc target).status = s.status := rfl
@[simp] theorem State.setPc_out (target : Word) : (s.setPc target).out = s.out := rfl
@[simp] theorem State.setPc_flushed (target : Word) : (s.setPc target).flushed = s.flushed := rfl
@[simp] theorem State.setPc_input (target : Word) : (s.setPc target).input = s.input := rfl
@[simp] theorem State.setPc_held (target : Word) : (s.setPc target).held = s.held := rfl
@[simp] theorem State.setPc_getReg (target : Word) (q : Reg) : (s.setPc target).getReg q = s.getReg q := rfl
@[simp] theorem State.setPc_cell (target : Word) (b : Word) : (s.setPc target).cell b = s.cell b := rfl

@[simp] theorem State.incPc_regs : s.incPc.regs = s.regs := rfl
@[simp] theorem State.incPc_pc : s.incPc.pc = s.pc + 1#16 := rfl
@[simp] theorem State.incPc_cond : s.incPc.cond = s.cond := rfl
@[simp] theorem State.incPc_mem : s.incPc.mem = s.mem := rfl
@[simp] theorem State.incPc_status : s.incPc.status = s.status := rfl
@[simp] theorem State.incPc_out : s.incPc.out = s.out := rfl
@[simp] theorem State.incPc_flushed : s.incPc.flushed = s.flushed := rfl
@[simp] theorem State.incPc_input : s.incPc.input = s.input := rfl
@[simp] theorem State.incPc_held : s.incPc.held = s.held := rfl
@[simp] theorem State.incPc_getReg (q : Reg) : s.incPc.getReg q = s.getReg q := rfl
@[simp] theorem State.incPc_cell (b : Word) : s.incPc.cell b = s.cell b := rfl

@[simp] theorem State.setCond_regs (f : Flag) : (s.setCond f).regs = s.regs := rfl
@[simp] theorem State.setCond_pc (f : Flag) : (s.setCond f).pc = s.pc := rfl
@[simp] theorem State.setCond_cond (f : Flag) : (s.setCond f).cond = f := rfl
@[simp] theorem State.setCond_mem (f : Flag) : (s.setCond f).mem = s.mem := rfl
@[simp] theorem State.setCond_status (f : Flag) : (s.setCond f).status = s.status := rfl
@[simp] theorem State.setCond_out (f : Flag) : (s.setCond f).out = s.out := rfl
@[simp] theorem State.setCond_flushed (f : Flag) : (s.setCond f).flushed = s.flushed := rfl
@[simp] theorem State.setCond_input (f : Flag) : (s.setCond f).input = s.input := rfl
@[simp] theorem State.setCond_held (f : Flag) : (s.setCond f).held = s.held := rfl
@[simp] theorem State.setCond_getReg (f : Flag) (q : Reg) : (s.setCond f).getReg q = s.getReg q := rfl
@[simp] theorem State.setCond_cell (f : Flag) (b : Word) : (s.setCond f).cell b = s.cell b := rfl

@[simp] theorem State.memWrite_regs (a v : Word) : (s.memWrite a v).regs = s.regs := rfl
@[simp] theorem State.memWrite_pc (a v : Word) : (s.memWrite a v).pc = s.pc := rfl
@[simp] theorem State.memWrite_cond (a v : Word) : (s.memWrite a v).cond = s.cond := rfl
@[simp] theorem State.memWrite_mem (a v : Word) : (s.memWrite a v).mem = Memory.write a.toNat v s.mem := rfl
@[simp] theorem State.memWrite_status (a v : Word) : (s.memWrite a v).status = s.status := rfl
@[simp] theorem State.memWrite_out (a v : Word) : (s.memWrite a v).out = s.out := rfl
@[simp] theorem State.memWrite_flushed (a v : Word) : (s.memWrite a v).flushed = s.flushed := rfl
@[simp] theorem State.memWrite_input (a v : Word) : (s.memWrite a v).input = s.input := rfl
@[simp] theorem State.memWrite_held (a v : Word) : (s.memWrite a v).held = s.held := rfl
@[simp] theorem State.memWrite_getReg (a v : Word) (q : Reg) : (s.memWrite a v).getReg q = s.getReg q := rfl

@[simp] theorem State.emit_regs (codes : List Byte) : (s.emit codes).regs = s.regs := rfl
@[simp] theorem State.emit_pc (codes : List Byte) : (s.emit codes).pc = s.pc := rfl
@[simp] theorem State.emit_cond (codes : List Byte) : (s.emit codes).cond = s.cond := rfl
@[simp] theorem State.emit_mem (codes : List Byte) : (s.emit codes).mem = s.mem := rfl
@[simp] theorem State.emit_status (codes : List Byte) : (s.emit codes).status = s.status := rfl
@[simp] theorem State.emit_out (codes : List Byte) : (s.emit codes).out = s.out ++ codes := rfl
@[simp] theorem State.emit_flushed (codes : List Byte) : (s.emit codes).flushed = s.flushed := rfl
@[simp] theorem State.emit_input (codes : List Byte) : (s.emit codes).input = s.input := rfl
@[simp] theorem State.emit_held (codes : List Byte) : (s.emit codes).held = s.held := rfl
@[simp] theorem State.emit_getReg (codes : List Byte) (q : Reg) : (s.emit codes).getReg q = s.getReg q := rfl
@[simp] theorem State.emit_cell (codes : List Byte) (b : Word) : (s.emit codes).cell b = s.cell b := rfl

@[simp] theorem State.flush_regs : s.flush.regs = s.regs := rfl
@[simp] theorem State.flush_pc : s.flush.pc = s.pc := rfl
@[simp] theorem State.flush_cond : s.flush.cond = s.cond := rfl
@[simp] theorem State.flush_mem : s.flush.mem = s.mem := rfl
@[simp] theorem State.flush_status : s.flush.status = s.status := rfl
@[simp] theorem State.flush_out : s.flush.out = s.out := rfl
@[simp] theorem State.flush_flushed : s.flush.flushed = s.out.length := rfl
@[simp] theorem State.flush_input : s.flush.input = s.input := rfl
@[simp] theorem State.flush_held : s.flush.held = s.held := rfl
@[simp] theorem State.flush_getReg (q : Reg) : s.flush.getReg q = s.getReg q := rfl
@[simp] theorem State.flush_cell (b : Word) : s.flush.cell b = s.cell b := rfl

@[simp] theorem State.stopHalted_regs : s.stopHalted.regs = s.regs := rfl
@[simp] theorem State.stopHalted_pc : s.stopHalted.pc = s.pc := rfl
@[simp] theorem State.stopHalted_cond : s.stopHalted.cond = s.cond := rfl
@[simp] theorem State.stopHalted_mem : s.stopHalted.mem = s.mem := rfl
@[simp] theorem State.stopHalted_status : s.stopHalted.status = .halted := rfl
@[simp] theorem State.stopHalted_out : s.stopHalted.out = s.out := rfl
@[simp] theorem State.stopHalted_flushed : s.stopHalted.flushed = s.flushed := rfl
@[simp] theorem State.stopHalted_input : s.stopHalted.input = s.input := rfl
@[simp] theorem State.stopHalted_held : s.stopHalted.held = s.held := rfl
@[simp] theorem State.stopHalted_getReg (q : Reg) : s.stopHalted.getReg q = s.getReg q := rfl
@[simp] theorem State.stopHalted_cell (b : Word) : s.stopHalted.cell b = s.cell b := rfl

@[simp] theorem State.raise_regs (f : Fault) : (s.raise f).regs = s.regs := rfl
@[simp] theorem State.raise_pc (f : Fault) : (s.raise f).pc = s.pc := rfl
@[simp] theorem State.raise_cond (f : Fault) : (s.raise f).cond = s.cond := rfl
@[simp] theorem State.raise_mem (f : Fault) : (s.raise f).mem = s.mem := rfl
@[simp] theorem State.raise_status (f : Fault) : (s.raise f).status = .faulted f := rfl
@[simp] theorem State.raise_out (f : Fault) : (s.raise f).out = s.out := rfl
@[simp] theorem State.raise_flushed (f : Fault) : (s.raise f).flushed = s.flushed := rfl
@[simp] theorem State.raise_input (f : Fault) : (s.raise f).input = s.input := rfl
@[simp] theorem State.raise_held (f : Fault) : (s.raise f).held = s.held := rfl
@[simp] theorem State.raise_getReg (f : Fault) (q : Reg) : (s.raise f).getReg q = s.getReg q := rfl
@[simp] theorem State.raise_cell (f : Fault) (b : Word) : (s.raise f).cell b = s.cell b := rfl

@[simp] theorem State.setcc_regs (v : Word) : (s.setcc v).regs = s.regs := rfl
@[simp] theorem State.setcc_pc (v : Word) : (s.setcc v).pc = s.pc := rfl
@[simp] theorem State.setcc_cond (v : Word) : (s.setcc v).cond = flags v := rfl
@[simp] theorem State.setcc_mem (v : Word) : (s.setcc v).mem = s.mem := rfl
@[simp] theorem State.setcc_status (v : Word) : (s.setcc v).status = s.status := rfl
@[simp] theorem State.setcc_out (v : Word) : (s.setcc v).out = s.out := rfl
@[simp] theorem State.setcc_flushed (v : Word) : (s.setcc v).flushed = s.flushed := rfl
@[simp] theorem State.setcc_input (v : Word) : (s.setcc v).input = s.input := rfl
@[simp] theorem State.setcc_held (v : Word) : (s.setcc v).held = s.held := rfl
@[simp] theorem State.setcc_getReg (v : Word) (q : Reg) : (s.setcc v).getReg q = s.getReg q := rfl
@[simp] theorem State.setcc_cell (v : Word) (b : Word) : (s.setcc v).cell b = s.cell b := rfl

@[simp] theorem State.setHeld_regs (h : Option Instr) : (s.setHeld h).regs = s.regs := rfl
@[simp] theorem State.setHeld_pc (h : Option Instr) : (s.setHeld h).pc = s.pc := rfl
@[simp] theorem State.setHeld_cond (h : Option Instr) : (s.setHeld h).cond = s.cond := rfl
@[simp] theorem State.setHeld_mem (h : Option Instr) : (s.setHeld h).mem = s.mem := rfl
@[simp] theorem State.setHeld_status (h : Option Instr) : (s.setHeld h).status = s.status := rfl
@[simp] theorem State.setHeld_out (h : Option Instr) : (s.setHeld h).out = s.out := rfl
@[simp] theorem State.setHeld_flushed (h : Option Instr) : (s.setHeld h).flushed = s.flushed := rfl
@[simp] theorem State.setHeld_input (h : Option Instr) : (s.setHeld h).input = s.input := rfl
@[simp] theorem State.setHeld_held (h : Option Instr) : (s.setHeld h).held = h := rfl
@[simp] theorem State.setHeld_getReg (h : Option Instr) (q : Reg) : (s.setHeld h).getReg q = s.getReg q := rfl
@[simp] theorem State.setHeld_cell (h : Option Instr) (b : Word) : (s.setHeld h).cell b = s.cell b := rfl
@[simp] theorem State.setHeld_setHeld (h k : Option Instr) : (s.setHeld h).setHeld k = s.setHeld k := rfl

@[simp] theorem State.supplyInput_regs (e : InputEvent) : (s.supplyInput e).regs = s.regs := rfl
@[simp] theorem State.supplyInput_pc (e : InputEvent) : (s.supplyInput e).pc = s.pc := rfl
@[simp] theorem State.supplyInput_cond (e : InputEvent) : (s.supplyInput e).cond = s.cond := rfl
@[simp] theorem State.supplyInput_mem (e : InputEvent) : (s.supplyInput e).mem = s.mem := rfl
@[simp] theorem State.supplyInput_status (e : InputEvent) : (s.supplyInput e).status = s.status := rfl
@[simp] theorem State.supplyInput_out (e : InputEvent) : (s.supplyInput e).out = s.out := rfl
@[simp] theorem State.supplyInput_flushed (e : InputEvent) : (s.supplyInput e).flushed = s.flushed := rfl
@[simp] theorem State.supplyInput_input (e : InputEvent) : (s.supplyInput e).input = s.input ++ [e] := rfl
@[simp] theorem State.supplyInput_held (e : InputEvent) : (s.supplyInput e).held = s.held := rfl
@[simp] theorem State.supplyInput_getReg (e : InputEvent) (q : Reg) : (s.supplyInput e).getReg q = s.getReg q := rfl
@[simp] theorem State.supplyInput_cell (e : InputEvent) (b : Word) : (s.supplyInput e).cell b = s.cell b := rfl

@[simp] theorem State.setInput_regs (l : List InputEvent) : (s.setInput l).regs = s.regs := rfl
@[simp] theorem State.setInput_pc (l : List InputEvent) : (s.setInput l).pc = s.pc := rfl
@[simp] theorem State.setInput_cond (l : List InputEvent) : (s.setInput l).cond = s.cond := rfl
@[simp] theorem State.setInput_mem (l : List InputEvent) : (s.setInput l).mem = s.mem := rfl
@[simp] theorem State.setInput_status (l : List InputEvent) : (s.setInput l).status = s.status := rfl
@[simp] theorem State.setInput_out (l : List InputEvent) : (s.setInput l).out = s.out := rfl
@[simp] theorem State.setInput_flushed (l : List InputEvent) : (s.setInput l).flushed = s.flushed := rfl
@[simp] theorem State.setInput_input (l : List InputEvent) : (s.setInput l).input = l := rfl
@[simp] theorem State.setInput_held (l : List InputEvent) : (s.setInput l).held = s.held := rfl
@[simp] theorem State.setInput_getReg (l : List InputEvent) (q : Reg) : (s.setInput l).getReg q = s.getReg q := rfl
@[simp] theorem State.setInput_cell (l : List InputEvent) (b : Word) : (s.setInput l).cell b = s.cell b := rfl

/-- A register reads as what was written to it, and any other as before (R10, R14). -/
theorem State.setReg_getReg (r : Reg) (v : Word) (q : Reg) :
    (s.setReg r v).getReg q = if q = r then v else s.getReg q := by
  have h : (r.val = q.val) ↔ q = r := by rw [Fin.ext_iff]; exact eq_comm
  simp only [State.setReg, State.getReg, Vector.get_eq_getElem, Vector.getElem_set, h]

@[simp] theorem State.setReg_getReg_same (r : Reg) (v : Word) : (s.setReg r v).getReg r = v := by
  simp [State.setReg_getReg]

theorem State.setReg_getReg_other (r : Reg) (v : Word) (q : Reg) (h : q ≠ r) :
    (s.setReg r v).getReg q = s.getReg q := by
  simp [State.setReg_getReg, h]

/-- Writing a register with its own value changes nothing. -/
theorem State.setReg_self (r : Reg) : s.setReg r (s.getReg r) = s := by
  simp [State.setReg, State.getReg, Vector.get_eq_getElem]

/-- Two states are equal when their fields are. -/
theorem State.ext_fields {s t : State} (h1 : t.regs = s.regs) (h2 : t.pc = s.pc) (h3 : t.cond = s.cond)
    (h4 : t.mem = s.mem) (h5 : t.status = s.status) (h6 : t.out = s.out) (h7 : t.flushed = s.flushed)
    (h8 : t.input = s.input) (h9 : t.held = s.held) : t = s := by
  cases s; cases t; simp_all

/-- Registers that read the same are the same. -/
theorem State.regs_ext {s t : State} (h : ∀ r : Reg, t.getReg r = s.getReg r) : t.regs = s.regs := by
  apply Vector.ext
  intro i hi
  simpa [State.getReg, Vector.get_eq_getElem] using h ⟨i, hi⟩

end Sys2Proof.Machine
end

