-- ==== Sys2Proof/Laws/Memory.lean ====
section
/-! SUPPORT. Memory: a read after a write, and the canonical form, which every memory operation keeps. -/

namespace Sys2Proof.Machine

@[simp] theorem Memory.read_nil (a : Nat) : Memory.read a [] = Memory.unlisted := rfl

theorem Memory.read_cons (a b : Nat) (v : Word) (m : Memory) :
    Memory.read a ((b, v) :: m) = if a = b then v else Memory.read a m := rfl

/-- An erased cell reads as unlisted, any other as before. -/
theorem Memory.read_erase (a b : Nat) (m : Memory) :
    Memory.read b (Memory.erase a m) = if b = a then Memory.unlisted else Memory.read b m := by
  induction m with
  | nil => simp [Memory.erase]
  | cons p m ih =>
    obtain ⟨c, v⟩ := p
    by_cases hac : a = c <;> by_cases hb : b = a <;> simp_all [Memory.erase, Memory.read_cons]

/-- An inserted cell reads as the value put, any other as before, if the cell was not listed. -/
theorem Memory.read_insert (a b : Nat) (v : Word) (m : Memory) (h : Memory.erase a m = m) :
    Memory.read b (Memory.insert a v m) = if b = a then v else Memory.read b m := by
  induction m with
  | nil => simp [Memory.insert, Memory.read_cons]
  | cons p m ih =>
    obtain ⟨c, u⟩ := p
    simp only [Memory.erase] at h
    by_cases hac : a = c
    · rw [if_pos hac] at h
      have hl : ∀ n : Memory, (Memory.erase a n).length ≤ n.length := by
        intro n
        induction n with
        | nil => simp [Memory.erase]
        | cons q n ihn => obtain ⟨d, w⟩ := q; simp only [Memory.erase]; split <;> simp <;> omega
      have := hl m
      rw [h] at this
      simp at this
    · rw [if_neg hac] at h
      simp only [List.cons.injEq, true_and] at h
      simp only [Memory.insert]
      split
      · simp only [Memory.read_cons]
      · simp only [Memory.read_cons, ih h]
        by_cases hb : b = a <;> simp_all

theorem Memory.erase_erase (a : Nat) (m : Memory) : Memory.erase a (Memory.erase a m) = Memory.erase a m := by
  induction m with
  | nil => rfl
  | cons p m ih =>
    obtain ⟨c, u⟩ := p
    simp only [Memory.erase]
    split
    · exact ih
    · rename_i h; simp only [Memory.erase, if_neg h, ih]

/-- Read after write, for every list of cells (R40, R49). -/
theorem Memory.read_write (a b : Nat) (v : Word) (m : Memory) :
    Memory.read b (Memory.write a v m) = if b = a then v else Memory.read b m := by
  unfold Memory.write
  split
  · rename_i h; rw [Memory.read_erase, h]
  · rw [Memory.read_insert _ _ _ _ (Memory.erase_erase a m), Memory.read_erase]
    split <;> simp_all

/-- How a cell reads after a write (R40, R49). -/
theorem State.memWrite_cell (s : State) (a v b : Word) :
    (s.memWrite a v).cell b = if b = a then v else s.cell b := by
  simp only [State.cell, State.memWrite, Memory.read_write, BitVec.toNat_inj]

@[simp] theorem State.memWrite_cell_same (s : State) (a v : Word) : (s.memWrite a v).cell a = v := by
  simp [State.memWrite_cell]

theorem Memory.wfFrom_mono {lo lo' : Nat} {m : Memory} (h : Memory.wfFrom lo m = true) (hl : lo' ≤ lo) :
    Memory.wfFrom lo' m = true := by
  cases m with
  | nil => rfl
  | cons p m =>
    obtain ⟨a, v⟩ := p
    simp only [Memory.wfFrom, Bool.and_eq_true, decide_eq_true_eq] at h ⊢
    exact ⟨⟨⟨by omega, h.1.1.2⟩, h.1.2⟩, h.2⟩

theorem Memory.wfFrom_erase {lo : Nat} {m : Memory} (a : Nat) (h : Memory.wfFrom lo m = true) :
    Memory.wfFrom lo (Memory.erase a m) = true := by
  induction m generalizing lo with
  | nil => rfl
  | cons p m ih =>
    obtain ⟨c, u⟩ := p
    simp only [Memory.wfFrom, Bool.and_eq_true, decide_eq_true_eq] at h
    simp only [Memory.erase]
    split
    · exact Memory.wfFrom_mono (ih h.2) (by omega)
    · simp only [Memory.wfFrom, Bool.and_eq_true, decide_eq_true_eq]
      exact ⟨h.1, ih h.2⟩

theorem Memory.wfFrom_insert {lo a : Nat} {v : Word} {m : Memory} (h : Memory.wfFrom lo m = true)
    (he : Memory.erase a m = m) (hlo : lo ≤ a) (ha : a < 65536) (hv : v ≠ Memory.unlisted) :
    Memory.wfFrom lo (Memory.insert a v m) = true := by
  induction m generalizing lo with
  | nil => simp [Memory.insert, Memory.wfFrom, hlo, ha, hv]
  | cons p m ih =>
    obtain ⟨c, u⟩ := p
    have hne : a ≠ c := by
      intro hac
      have h1 := Memory.read_erase a a ((c, u) :: m)
      rw [he, Memory.read_cons, if_pos hac, if_pos rfl] at h1
      simp only [Memory.wfFrom, Bool.and_eq_true, decide_eq_true_eq] at h
      exact h.1.2 h1
    simp only [Memory.erase, if_neg hne, List.cons.injEq, true_and] at he
    simp only [Memory.wfFrom, Bool.and_eq_true, decide_eq_true_eq] at h
    simp only [Memory.insert]
    split
    · simp only [Memory.wfFrom, Bool.and_eq_true, decide_eq_true_eq]
      exact ⟨⟨⟨hlo, ha⟩, hv⟩, ⟨⟨by omega, h.1.1.2⟩, h.1.2⟩, h.2⟩
    · simp only [Memory.wfFrom, Bool.and_eq_true, decide_eq_true_eq]
      exact ⟨h.1, ih h.2 he (by omega)⟩

/-- A write keeps the canonical form. -/
theorem Memory.wf_write (a : Word) (v : Word) {m : Memory} (h : Memory.wf m = true) :
    Memory.wf (Memory.write a.toNat v m) = true := by
  unfold Memory.write
  split
  · exact Memory.wfFrom_erase _ h
  · rename_i hv
    exact Memory.wfFrom_insert (Memory.wfFrom_erase _ h) (Memory.erase_erase _ _) (Nat.zero_le _) (by omega) hv

/-- Every memory operation of the state keeps the canonical form. -/
theorem State.memWrite_wf (s : State) (a v : Word) (h : Memory.wf s.mem = true) :
    Memory.wf (s.memWrite a v).mem = true := Memory.wf_write a v h

theorem State.reset_mem_wf : Memory.wf State.reset.mem = true := rfl

/-- Below its first address a canonical memory reads as unlisted. -/
theorem Memory.read_of_wfFrom {lo : Nat} {m : Memory} (h : Memory.wfFrom lo m = true) {a : Nat} (ha : a < lo) :
    Memory.read a m = Memory.unlisted := by
  induction m generalizing lo with
  | nil => rfl
  | cons p m ih =>
    obtain ⟨c, u⟩ := p
    simp only [Memory.wfFrom, Bool.and_eq_true, decide_eq_true_eq] at h
    rw [Memory.read_cons, if_neg (by omega)]
    exact ih h.2 (by omega)

end Sys2Proof.Machine
end

