-- ==== Sys2Proof/Laws/Ops.lean ====
section
/-! SUPPORT. One lemma for each shared operation that says what it can do: reads and polls, a flag-defining write, the hold,
the link and the end of a trap, the string walk, and the step. Later proofs cite these. -/

namespace Sys2Proof.Machine

/-! ## Input and reads -/

theorem State.inputRead_nil {s : State} (h : s.input = []) : s.inputRead = none := by
  simp [State.inputRead, h]

theorem State.inputRead_cons {s : State} {e : InputEvent} {rest : List InputEvent} (h : s.input = e :: rest) :
    s.inputRead = some (e, s.setInput rest) := by
  simp [State.inputRead, h]

/-- An event taken is the first one, and nothing else changes (R42). -/
theorem State.inputRead_eq_some {s t : State} {e : InputEvent} (h : s.inputRead = some (e, t)) :
    ∃ rest, s.input = e :: rest ∧ t = s.setInput rest := by
  unfold State.inputRead at h
  split at h
  · cases h
  · rename_i e' rest hs
    cases h
    exact ⟨rest, hs, rfl⟩

/-- The cells after a poll (R38). -/
theorem State.pollCells_cell (s : State) (e : InputEvent) (b : Word) :
    (s.pollCells e).cell b = match e with
      | .char c => if b = Config.kbdrAddr then zext8 c else if b = Config.kbsrAddr then 0x8000#16 else s.cell b
      | .eof => if b = Config.kbsrAddr then 0x0000#16 else s.cell b := by
  cases e <;> simp [State.pollCells, State.memWrite_cell]

@[simp] theorem State.pollCells_regs (s : State) (e : InputEvent) : (s.pollCells e).regs = s.regs := by cases e <;> rfl
@[simp] theorem State.pollCells_pc (s : State) (e : InputEvent) : (s.pollCells e).pc = s.pc := by cases e <;> rfl
@[simp] theorem State.pollCells_cond (s : State) (e : InputEvent) : (s.pollCells e).cond = s.cond := by cases e <;> rfl
@[simp] theorem State.pollCells_status (s : State) (e : InputEvent) : (s.pollCells e).status = s.status := by
  cases e <;> rfl
@[simp] theorem State.pollCells_out (s : State) (e : InputEvent) : (s.pollCells e).out = s.out := by cases e <;> rfl
@[simp] theorem State.pollCells_flushed (s : State) (e : InputEvent) : (s.pollCells e).flushed = s.flushed := by
  cases e <;> rfl
@[simp] theorem State.pollCells_input (s : State) (e : InputEvent) : (s.pollCells e).input = s.input := by cases e <;> rfl
@[simp] theorem State.pollCells_held (s : State) (e : InputEvent) : (s.pollCells e).held = s.held := by cases e <;> rfl
@[simp] theorem State.pollCells_getReg (s : State) (e : InputEvent) (r : Reg) :
    (s.pollCells e).getReg r = s.getReg r := by cases e <;> rfl

theorem State.pollCells_wf (s : State) (e : InputEvent) (h : Memory.wf s.mem = true) :
    Memory.wf (s.pollCells e).mem = true := by
  cases e
  · exact State.memWrite_wf _ _ _ (State.memWrite_wf _ _ _ h)
  · exact State.memWrite_wf _ _ _ h

/-- A read of any address but KBSR is plain (R41). -/
theorem State.memRead_plain (s : State) {a : Word} (h : a ≠ Config.kbsrAddr) : s.memRead a = some (s.cell a, s) := by
  simp [State.memRead, h]

/-- A read of KBSR with no event holds (R42). -/
theorem State.memRead_kbsr_nil {s : State} (h : s.input = []) : s.memRead Config.kbsrAddr = none := by
  simp [State.memRead, State.kbPoll, State.inputRead_nil h]

/-- A read of KBSR polls (R37, R38). -/
theorem State.memRead_kbsr_cons {s : State} {e : InputEvent} {rest : List InputEvent} (h : s.input = e :: rest) :
    s.memRead Config.kbsrAddr =
      some (((s.setInput rest).pollCells e).cell Config.kbsrAddr,
        (s.setInput rest).pollCells e) := by
  simp [State.memRead, State.kbPoll, State.inputRead_cons h]

/-- What a read that does not hold can have done: nothing, or one poll. -/
theorem State.memRead_eq_some {s t : State} {a v : Word} (h : s.memRead a = some (v, t)) :
    (a ≠ Config.kbsrAddr ∧ v = s.cell a ∧ t = s) ∨
    (a = Config.kbsrAddr ∧ ∃ e rest, s.input = e :: rest ∧ t = (s.setInput rest).pollCells e ∧
      v = t.cell a) := by
  by_cases ha : a = Config.kbsrAddr
  · subst ha
    cases hi : s.input with
    | nil => rw [State.memRead_kbsr_nil hi] at h; cases h
    | cons e rest =>
      rw [State.memRead_kbsr_cons hi] at h
      cases h
      exact .inr ⟨rfl, e, rest, rfl, rfl, rfl⟩
  · rw [State.memRead_plain s ha] at h
    cases h
    exact .inl ⟨ha, rfl, rfl⟩

/-- A read holds exactly at KBSR with no event (R38, R42). -/
theorem State.memRead_eq_none {s : State} {a : Word} : s.memRead a = none ↔ a = Config.kbsrAddr ∧ s.input = [] := by
  constructor
  · intro h
    by_cases ha : a = Config.kbsrAddr
    · subst ha
      cases hi : s.input with
      | nil => exact ⟨rfl, rfl⟩
      | cons e rest => rw [State.memRead_kbsr_cons hi] at h; cases h
    · rw [State.memRead_plain s ha] at h; cases h
  · rintro ⟨rfl, h⟩
    exact State.memRead_kbsr_nil h

/-- What any number of reads leaves of the state: everything but events taken from the front of the input and the two
keyboard cells, and those only if an event was taken. -/
structure PollsOnly (s t : State) : Prop where
  regs    : t.regs = s.regs
  pc      : t.pc = s.pc
  cond    : t.cond = s.cond
  status  : t.status = s.status
  flushed : t.flushed = s.flushed
  held    : t.held = s.held
  input   : ∃ taken, s.input = taken ++ t.input
  cells   : ∀ b, t.cell b ≠ s.cell b → (b = Config.kbsrAddr ∨ b = Config.kbdrAddr) ∧ t.input ≠ s.input
  wf      : Memory.wf s.mem = true → Memory.wf t.mem = true

theorem PollsOnly.refl (s : State) : PollsOnly s s :=
  ⟨rfl, rfl, rfl, rfl, rfl, rfl, ⟨[], rfl⟩, fun _ h => absurd rfl h, id⟩

theorem append_eq_self_of_append {a b l : List InputEvent} (h : l = a ++ (b ++ l)) : a = [] ∧ b = [] := by
  have := congrArg List.length h
  simp only [List.length_append] at this
  exact ⟨List.length_eq_zero_iff.mp (by omega), List.length_eq_zero_iff.mp (by omega)⟩

theorem PollsOnly.trans {s t u : State} (h : PollsOnly s t) (k : PollsOnly t u) : PollsOnly s u := by
  obtain ⟨x, hx⟩ := h.input
  obtain ⟨y, hy⟩ := k.input
  refine ⟨k.regs.trans h.regs, k.pc.trans h.pc, k.cond.trans h.cond, k.status.trans h.status,
    k.flushed.trans h.flushed, k.held.trans h.held, ⟨x ++ y, by rw [hx, hy, List.append_assoc]⟩, ?_, fun w => k.wf (h.wf w)⟩
  intro b hb
  by_cases hut : u.cell b = t.cell b
  · obtain ⟨hk, hne⟩ := h.cells b (by rw [← hut]; exact hb)
    refine ⟨hk, fun hus => hne ?_⟩
    have := append_eq_self_of_append (a := x) (b := y) (l := s.input) (by rw [← hus, ← hy, ← hx, hus])
    rw [hx, this.1, List.nil_append]
  · obtain ⟨hk, hne⟩ := k.cells b hut
    refine ⟨hk, fun hus => hne ?_⟩
    have := append_eq_self_of_append (a := x) (b := y) (l := s.input) (by rw [← hus, ← hy, ← hx, hus])
    rw [hy, this.2, List.nil_append]

/-- A read changes only what a poll changes (R38, R41). -/
theorem State.memRead_pollsOnly {s t : State} {a v : Word} (h : s.memRead a = some (v, t)) : PollsOnly s t := by
  rcases State.memRead_eq_some h with ⟨-, -, rfl⟩ | ⟨-, e, rest, hi, rfl, -⟩
  · exact PollsOnly.refl t
  · refine ⟨by simp, by simp, by simp, by simp, by simp, by simp, ⟨[e], by simp [hi]⟩, ?_,
      fun w => State.pollCells_wf (s.setInput rest) e w⟩
    intro b hb
    refine ⟨?_, by simp [hi]⟩
    by_contra hk
    rw [not_or] at hk
    apply hb
    rw [State.pollCells_cell]
    cases e <;> simp [hk.1, hk.2]

theorem State.memRead_out {s t : State} {a v : Word} (h : s.memRead a = some (v, t)) : t.out = s.out := by
  rcases State.memRead_eq_some h with ⟨-, -, rfl⟩ | ⟨-, e, rest, -, rfl, -⟩ <;> simp

/-! ## The hold -/

@[simp] theorem State.orHold_some (s t : State) (i : Instr) : s.orHold i (some t) = t.setHeld none := rfl
@[simp] theorem State.orHold_none (s : State) (i : Instr) : s.orHold i none = s.setHeld (some i) := rfl

/-! ## Flags, a flag-defining write, the link -/

/-- The three cases of R79. -/
theorem flags_cases (v : Word) :
    (v = 0 ∧ flags v = .z) ∨ (v ≠ 0 ∧ v.getLsbD 15 = true ∧ flags v = .n) ∨
    (v ≠ 0 ∧ v.getLsbD 15 = false ∧ flags v = .p) := by
  unfold flags
  by_cases h : v = 0#16
  · simp [h]
  · by_cases k : v.getLsbD 15 = true <;> simp_all

section
variable (s : State) (r : Reg) (v : Word)
@[simp] theorem State.setRegCc_pc : (s.setRegCc r v).pc = s.pc := rfl
@[simp] theorem State.setRegCc_cond : (s.setRegCc r v).cond = flags v := rfl
@[simp] theorem State.setRegCc_mem : (s.setRegCc r v).mem = s.mem := rfl
@[simp] theorem State.setRegCc_status : (s.setRegCc r v).status = s.status := rfl
@[simp] theorem State.setRegCc_out : (s.setRegCc r v).out = s.out := rfl
@[simp] theorem State.setRegCc_flushed : (s.setRegCc r v).flushed = s.flushed := rfl
@[simp] theorem State.setRegCc_input : (s.setRegCc r v).input = s.input := rfl
@[simp] theorem State.setRegCc_held : (s.setRegCc r v).held = s.held := rfl
@[simp] theorem State.setRegCc_cell (b : Word) : (s.setRegCc r v).cell b = s.cell b := rfl
theorem State.setRegCc_getReg (q : Reg) : (s.setRegCc r v).getReg q = if q = r then v else s.getReg q :=
  State.setReg_getReg s r v q

@[simp] theorem State.link_pc : s.link.pc = s.pc := rfl
@[simp] theorem State.link_cond : s.link.cond = s.cond := rfl
@[simp] theorem State.link_mem : s.link.mem = s.mem := rfl
@[simp] theorem State.link_status : s.link.status = s.status := rfl
@[simp] theorem State.link_out : s.link.out = s.out := rfl
@[simp] theorem State.link_flushed : s.link.flushed = s.flushed := rfl
@[simp] theorem State.link_input : s.link.input = s.input := rfl
@[simp] theorem State.link_held : s.link.held = s.held := rfl
@[simp] theorem State.link_cell (b : Word) : s.link.cell b = s.cell b := rfl
theorem State.link_getReg (q : Reg) : s.link.getReg q = if q = 7 then s.pc else s.getReg q :=
  State.setReg_getReg s 7 s.pc q

@[simp] theorem State.trapLink_pc : s.trapLink.pc = s.pc := rfl
@[simp] theorem State.trapLink_cond : s.trapLink.cond = s.cond := rfl
@[simp] theorem State.trapLink_mem : s.trapLink.mem = s.mem := rfl
@[simp] theorem State.trapLink_status : s.trapLink.status = s.status := rfl
@[simp] theorem State.trapLink_out : s.trapLink.out = s.out := rfl
@[simp] theorem State.trapLink_flushed : s.trapLink.flushed = s.flushed := rfl
@[simp] theorem State.trapLink_input : s.trapLink.input = s.input := rfl
@[simp] theorem State.trapLink_held : s.trapLink.held = s.held := rfl
@[simp] theorem State.trapLink_cell (b : Word) : s.trapLink.cell b = s.cell b := rfl
@[simp] theorem State.trapLink_walkFuel : s.trapLink.walkFuel = s.walkFuel := rfl

/-- The registers after the optional link (R105). -/
theorem State.trapLink_getReg (q : Reg) :
    s.trapLink.getReg q = if q = 7 ∧ Config.trapLinksR7 = true then s.pc else s.getReg q := by
  rw [State.trapLink, State.setReg_getReg]
  by_cases h : q = 7 <;> cases hc : Config.trapLinksR7 <;> simp [h]
end

/-- Linking again changes nothing: a trap that has held may run from its start (R73, R105). -/
theorem State.trapLink_trapLink (s : State) : s.trapLink.trapLink = s.trapLink := by
  refine State.ext_fields (State.regs_ext fun q => ?_) rfl rfl rfl rfl rfl rfl rfl rfl
  rw [State.trapLink_getReg, State.trapLink_getReg, State.trapLink_pc]
  split <;> rfl

/-- The prompt is due once (R73, R110). -/
theorem State.promptDue_of_held {s : State} (h : s.held = some .trapIn) : s.promptDue = [] := by
  simp [State.promptDue, h]

theorem State.promptDue_of_not_held {s : State} (h : s.held ≠ some .trapIn) : s.promptDue = Config.inPrompt := by
  simp [State.promptDue, h]

section
variable (s : State)
@[simp] theorem State.prompted_pc : s.prompted.pc = s.pc := rfl
@[simp] theorem State.prompted_cond : s.prompted.cond = s.cond := rfl
@[simp] theorem State.prompted_mem : s.prompted.mem = s.mem := rfl
@[simp] theorem State.prompted_status : s.prompted.status = s.status := rfl
@[simp] theorem State.prompted_out : s.prompted.out = s.out ++ s.promptDue := rfl
@[simp] theorem State.prompted_flushed : s.prompted.flushed = s.flushed := rfl
@[simp] theorem State.prompted_input : s.prompted.input = s.input := rfl
@[simp] theorem State.prompted_held : s.prompted.held = s.held := rfl
@[simp] theorem State.prompted_cell (b : Word) : s.prompted.cell b = s.cell b := rfl
@[simp] theorem State.prompted_getReg (q : Reg) : s.prompted.getReg q = s.trapLink.getReg q := rfl
end

/-! ## The end of GETC and IN -/

section
variable (s : State) (e : InputEvent)
@[simp] theorem State.receive_pc : (s.receive e).pc = s.pc := by cases e <;> rfl
@[simp] theorem State.receive_status : (s.receive e).status = s.status := by cases e <;> rfl
@[simp] theorem State.receive_out : (s.receive e).out = s.out := by cases e <;> rfl
@[simp] theorem State.receive_flushed : (s.receive e).flushed = s.flushed := by cases e <;> rfl
@[simp] theorem State.receive_input : (s.receive e).input = s.input := by cases e <;> rfl
@[simp] theorem State.receive_held : (s.receive e).held = s.held := by cases e <;> rfl

/-- The value that GETC and IN put into R0 (R107, R110). -/
def received : InputEvent → Word
  | .char b => zext8 b
  | .eof => Config.eofR0

theorem State.receive_cond : (s.receive e).cond = flags (received e) := by cases e <;> rfl

theorem State.receive_getReg (q : Reg) :
    (s.receive e).getReg q = if q = 0 then received e else s.getReg q := by
  cases e <;> simp [State.receive, received, State.setRegCc_getReg]

theorem State.receive_cell (b : Word) :
    (s.receive e).cell b = if e = .eof ∧ b = Config.kbsrAddr then 0x0000#16 else s.cell b := by
  cases e <;> simp [State.receive, State.memWrite_cell]

theorem State.receive_wf (h : Memory.wf s.mem = true) : Memory.wf (s.receive e).mem = true := by
  cases e
  · exact h
  · exact State.memWrite_wf s Config.kbsrAddr 0x0000#16 h
end

/-! ## The string walk -/

theorem State.stringWalk_succ (codes : Word → List Byte) (n : Nat) (a : Word) (s : State) :
    State.stringWalk codes (n + 1) a s =
      match s.memRead a with
      | none => none
      | some (c, t) => if c = 0x0000#16 then some t else State.stringWalk codes n (a + 1#16) (t.emit (codes c)) := rfl

theorem PollsOnly.of_emit {s t : State} {codes : List Byte} (h : PollsOnly (s.emit codes) t) : PollsOnly s t :=
  ⟨h.regs, h.pc, h.cond, h.status, h.flushed, h.held, h.input, h.cells, h.wf⟩

/-- A walk that ends has emitted codes and has done nothing else but its polls (R109, R111). -/
theorem State.stringWalk_frame {codes : Word → List Byte} {n : Nat} {a : Word} {s t : State}
    (h : State.stringWalk codes n a s = some t) : PollsOnly s t ∧ ∃ emitted, t.out = s.out ++ emitted := by
  induction n generalizing a s with
  | zero => cases h
  | succ n ih =>
    rw [State.stringWalk_succ] at h
    split at h
    · cases h
    · rename_i c u hr
      split at h
      · cases h
        exact ⟨State.memRead_pollsOnly hr, [], by simp [State.memRead_out hr]⟩
      · obtain ⟨hp, l, hl⟩ := ih h
        refine ⟨(State.memRead_pollsOnly hr).trans hp.of_emit, codes c ++ l, ?_⟩
        rw [hl, State.emit_out, State.memRead_out hr, List.append_assoc]

/-! ## Execution and the step -/

/-- Every instruction has a next state: none ends in a fault or a refusal. -/
theorem exec_next (i : Instr) (s : State) : ∃ t, exec i s = .next t := by
  cases i <;> exact ⟨_, rfl⟩

theorem fetch_eq_some {s u : State} {ir : Word} (h : s.fetch = some (ir, u)) :
    ∃ t, s.memRead s.pc = some (ir, t) ∧ u = t.incPc := by
  unfold State.fetch at h
  cases hr : s.memRead s.pc with
  | none => rw [hr] at h; cases h
  | some p => rw [hr] at h; cases h; exact ⟨p.2, rfl, rfl⟩

theorem fetch_eq_none {s : State} : s.fetch = none ↔ s.memRead s.pc = none := by
  unfold State.fetch; cases s.memRead s.pc <;> simp

/-- What a step that answers a next state can have done (R42, R72): a step in progress waited, or its instruction went
on; with no step in progress, the fetch held, or the word fetched was executed. -/
theorem step_cases {s t : State} (h : step s = .next t) :
    s.status = .running ∧
    ((∃ i, s.held = some i ∧ s.input = [] ∧ t = s) ∨ (∃ i, s.held = some i ∧ s.input ≠ [] ∧ exec i s = .next t) ∨
      (s.held = none ∧ s.fetch = none ∧ t = s) ∨
      (s.held = none ∧ ∃ ir u, s.fetch = some (ir, u) ∧ exec (decode ir) u = .next t)) := by
  unfold step at h
  split at h
  · rename_i hs
    refine ⟨hs, ?_⟩
    split at h
    · rename_i i hi
      split at h
      · rename_i he
        cases h
        exact .inl ⟨i, hi, List.isEmpty_iff.mp he, rfl⟩
      · rename_i he
        exact .inr (.inl ⟨i, hi, fun hn => he (List.isEmpty_iff.mpr hn), h⟩)
    · rename_i hn
      split at h
      · rename_i hf; cases h; exact .inr (.inr (.inl ⟨hn, hf, rfl⟩))
      · rename_i ir u hf; exact .inr (.inr (.inr ⟨hn, ir, u, hf, h⟩))
  · cases h
  · cases h

theorem step_of_fetch {s u : State} {ir : Word} (hs : s.status = .running) (hn : s.held = none)
    (h : s.fetch = some (ir, u)) : step s = exec (decode ir) u := by
  simp [step, hs, hn, h]

theorem step_of_hold {s : State} (hs : s.status = .running) (hn : s.held = none) (h : s.fetch = none) :
    step s = .next s := by
  simp [step, hs, hn, h]

/-- A step in progress waits while there is no event (R42). -/
theorem step_of_wait {s : State} {i : Instr} (hs : s.status = .running) (hi : s.held = some i) (h : s.input = []) :
    step s = .next s := by
  simp [step, hs, hi, h]

/-- A step in progress goes on when there is an event (R42). -/
theorem step_of_resume {s : State} {i : Instr} (hs : s.status = .running) (hi : s.held = some i) (h : s.input ≠ []) :
    step s = exec i s := by
  simp [step, hs, hi, h]

theorem fetch_plain {s : State} (h : s.pc ≠ Config.kbsrAddr) : s.fetch = some (s.cell s.pc, s.incPc) := by
  simp [State.fetch, State.memRead_plain s h]

end Sys2Proof.Machine
end

