-- ==== Sys2Proof/Laws/Exec.lean ====
section
/-! SUPPORT. What the next state of each reading or waiting instruction can be: the state in which it waits, with the effects
that R73 names, or the state after its reads with its own effect. -/

namespace Sys2Proof.Machine

/-- A state that differs from another by reads alone has its registers. -/
theorem PollsOnly.getReg {s t : State} (h : PollsOnly s t) (r : Reg) : t.getReg r = s.getReg r := by
  simp [State.getReg, h.regs]

/-- A load that does not hold (R96, R98). -/
theorem State.loadFrom_eq_some {s t : State} {dr : Reg} {ea : Word} (h : s.loadFrom dr ea = some t) :
    ∃ v u, s.memRead ea = some (v, u) ∧ t = u.setRegCc dr v := by
  unfold State.loadFrom at h
  cases hr : s.memRead ea with
  | none => rw [hr] at h; cases h
  | some p => rw [hr] at h; cases h; exact ⟨_, _, rfl, rfl⟩

/-- Whether a step is in progress plays no part in a read (R37, R38). -/
theorem State.memRead_setHeld (s : State) (h : Option Instr) (a : Word) :
    (s.setHeld h).memRead a = (s.memRead a).map fun (v, t) => (v, t.setHeld h) := by
  by_cases ha : a = Config.kbsrAddr
  · subst ha
    cases hi : s.input with
    | nil => rw [State.memRead_kbsr_nil hi, State.memRead_kbsr_nil (s := s.setHeld h) hi]; rfl
    | cons e rest =>
      rw [State.memRead_kbsr_cons hi, State.memRead_kbsr_cons (s := s.setHeld h) hi]; cases e <;> rfl
  · rw [State.memRead_plain s ha, State.memRead_plain _ ha]; rfl

/-- Nor in a walk (R109, R111). -/
theorem State.stringWalk_setHeld (codes : Word → List Byte) (h : Option Instr) (n : Nat) (a : Word) (s : State) :
    State.stringWalk codes n a (s.setHeld h) = (State.stringWalk codes n a s).map (·.setHeld h) := by
  induction n generalizing a s with
  | zero => rfl
  | succ n ih =>
    rw [State.stringWalk_succ, State.stringWalk_succ, State.memRead_setHeld]
    cases s.memRead a with
    | none => rfl
    | some p =>
      obtain ⟨c, t⟩ := p
      dsimp only [Option.map_some]
      split
      · rfl
      · exact ih (a + 1#16) (t.emit (codes c))

/-- An instruction that can hold has held, or is complete. -/
theorem State.orHold_cases (w : State) (i : Instr) (r : Option State) :
    (r = none ∧ w.orHold i r = w.setHeld (some i)) ∨ ∃ t, r = some t ∧ w.orHold i r = t.setHeld none := by
  cases r with
  | none => exact .inl ⟨rfl, rfl⟩
  | some t => exact .inr ⟨t, rfl, rfl⟩

/-- LD and LDR (R96, R98). -/
theorem State.load_cases (s : State) (i : Instr) (dr : Reg) (ea : Word) :
    s.orHold i (s.loadFrom dr ea) = s.setHeld (some i) ∨
    ∃ v u, PollsOnly s u ∧ u.out = s.out ∧ s.orHold i (s.loadFrom dr ea) = (u.setRegCc dr v).setHeld none := by
  rcases State.orHold_cases s i (s.loadFrom dr ea) with ⟨-, h⟩ | ⟨t, ht, h⟩
  · exact .inl h
  · obtain ⟨v, u, hr, rfl⟩ := State.loadFrom_eq_some ht
    exact .inr ⟨v, u, State.memRead_pollsOnly hr, State.memRead_out hr, h⟩

/-- LDI (R97). -/
theorem State.loadIndirect_cases (s : State) (i : Instr) (dr : Reg) (pa : Word) :
    s.orHold i ((s.memRead pa).bind fun (p, t) => t.loadFrom dr p) = s.setHeld (some i) ∨
    ∃ v u, PollsOnly s u ∧ u.out = s.out ∧
      s.orHold i ((s.memRead pa).bind fun (p, t) => t.loadFrom dr p) = (u.setRegCc dr v).setHeld none := by
  rcases State.orHold_cases s i ((s.memRead pa).bind fun (p, t) => t.loadFrom dr p) with ⟨-, h⟩ | ⟨t, ht, h⟩
  · exact .inl h
  · obtain ⟨⟨c, x⟩, hr, hl⟩ := Option.bind_eq_some_iff.mp ht
    obtain ⟨v, u, hr', rfl⟩ := State.loadFrom_eq_some hl
    exact .inr ⟨v, u, (State.memRead_pollsOnly hr).trans (State.memRead_pollsOnly hr'),
      (State.memRead_out hr').trans (State.memRead_out hr), h⟩

/-- STI (R101). -/
theorem State.storeIndirect_cases (s : State) (i : Instr) (sr : Reg) (pa : Word) :
    s.orHold i ((s.memRead pa).map fun (p, t) => t.memWrite p (t.getReg sr)) = s.setHeld (some i) ∨
    ∃ p u, s.memRead pa = some (p, u) ∧
      s.orHold i ((s.memRead pa).map fun (p, t) => t.memWrite p (t.getReg sr)) =
        (u.memWrite p (u.getReg sr)).setHeld none := by
  cases hr : s.memRead pa with
  | none => exact .inl rfl
  | some q => exact .inr ⟨_, _, rfl, rfl⟩

/-- PUTS and PUTSP (R109, R111). -/
theorem State.putString_cases (s : State) (i : Instr) (codes : Word → List Byte) :
    s.trapLink.orHold i (s.trapLink.putString codes) = s.trapLink.setHeld (some i) ∨
    ∃ u emitted, PollsOnly s.trapLink u ∧ u.out = s.out ++ emitted ∧
      s.trapLink.orHold i (s.trapLink.putString codes) = u.setHeld none := by
  rcases State.orHold_cases s.trapLink i (s.trapLink.putString codes) with ⟨-, h⟩ | ⟨u, hu, h⟩
  · exact .inl h
  · obtain ⟨hp, emitted, ho⟩ := State.stringWalk_frame hu
    exact .inr ⟨u, emitted, hp, ho, h⟩

/-- GETC (R107). -/
theorem State.getc_cases (s : State) :
    (s.input = [] ∧ s.trapLink.orHold .trapGetc (s.trapLink.inputRead.map fun (e, t) => t.receive e) =
      s.trapLink.setHeld (some .trapGetc)) ∨
    ∃ e rest, s.input = e :: rest ∧
      s.trapLink.orHold .trapGetc (s.trapLink.inputRead.map fun (e, t) => t.receive e) =
        ((s.trapLink.setInput rest).receive e).setHeld none := by
  cases hi : s.input with
  | nil => rw [State.inputRead_nil (s := s.trapLink) hi]; exact .inl ⟨rfl, rfl⟩
  | cons e rest => rw [State.inputRead_cons (s := s.trapLink) hi]; exact .inr ⟨e, rest, rfl, rfl⟩

/-- IN (R110). -/
theorem State.in_cases (s : State) :
    (s.input = [] ∧ s.prompted.orHold .trapIn (s.prompted.inputRead.map fun (e, t) => (t.emit (echo e)).receive e) =
      s.prompted.setHeld (some .trapIn)) ∨
    ∃ e rest, s.input = e :: rest ∧
      s.prompted.orHold .trapIn (s.prompted.inputRead.map fun (e, t) => (t.emit (echo e)).receive e) =
        (((s.prompted.setInput rest).emit (echo e)).receive e).setHeld none := by
  cases hi : s.input with
  | nil => rw [State.inputRead_nil (s := s.prompted) hi]; exact .inl ⟨rfl, rfl⟩
  | cons e rest => rw [State.inputRead_cons (s := s.prompted) hi]; exact .inr ⟨e, rest, rfl, rfl⟩

/-- The fetch changes PC and what a poll changes, and nothing else (R74). -/
theorem State.fetch_pollsOnly {s u : State} {ir : Word} (h : s.fetch = some (ir, u)) :
    PollsOnly s.incPc u ∧ u.out = s.out := by
  obtain ⟨t, hr, rfl⟩ := fetch_eq_some h
  have p := State.memRead_pollsOnly hr
  have ho : t.incPc.out = s.out := State.memRead_out (t := t) hr
  exact ⟨⟨p.regs, by simp [p.pc], p.cond, p.status, p.flushed, p.held, p.input, p.cells, p.wf⟩, ho⟩

end Sys2Proof.Machine
end

