-- ==== Sys2Proof/Laws/PerInstr.lean ====
section
/-! SUPPORT. Statements for all instructions, one lemma for each constructor. MatchesTableRow: the word that the encoder
writes meets the match and mask of the instruction's row in spec/opcode_table.json. -/

namespace Sys2Proof.Laws.MatchesTableRow

/-- The mask and the match of the instruction's row in spec/opcode_table.json. -/
def row (i : Instr) : Word × Word :=
  match i with
  | .add _ _ _ => (0xF020, 0x1000)
  | .addImm _ _ _ => (0xF020, 0x1020)
  | .and _ _ _ => (0xF020, 0x5000)
  | .andImm _ _ _ => (0xF020, 0x5020)
  | .not _ _ => (0xF000, 0x9000)
  | .br _ _ _ _ => (0xF000, 0x0000)
  | .jmp _ => (0xF000, 0xC000)
  | .jsr _ => (0xF800, 0x4800)
  | .jsrr _ => (0xF800, 0x4000)
  | .ld _ _ => (0xF000, 0x2000)
  | .ldi _ _ => (0xF000, 0xA000)
  | .ldr _ _ _ => (0xF000, 0x6000)
  | .lea _ _ => (0xF000, 0xE000)
  | .st _ _ => (0xF000, 0x3000)
  | .sti _ _ => (0xF000, 0xB000)
  | .str _ _ _ => (0xF000, 0x7000)
  | .trapGetc => (0xF0FF, 0xF020)
  | .trapOut => (0xF0FF, 0xF021)
  | .trapPuts => (0xF0FF, 0xF022)
  | .trapIn => (0xF0FF, 0xF023)
  | .trapPutsp => (0xF0FF, 0xF024)
  | .trapHalt => (0xF0FF, 0xF025)
  | .trapUnsupported _ => (0xF000, 0xF000)
  | .rti => (0xF000, 0x8000)
  | .res => (0xF000, 0xD000)

def Statement (i : Instr) : Prop := encode i &&& (row i).1 = (row i).2

theorem add (dr sr1 sr2 : Reg) : Statement (.add dr sr1 sr2) := by
  have h : (0b0001#4 ++ regBits dr ++ regBits sr1 ++ 0b000#3 ++ regBits sr2 : BitVec (4+3+3+3+3)) &&& (0xF#4 ++ 0#3 ++ 0#3 ++ 0b100#3 ++ 0#3) = 0x1000#(4+3+3+3+3) := by
    simp only [BitVec.and_append, BitVec.and_zero]; rfl
  exact h
theorem addImm (dr sr1 : Reg) (imm5 : BitVec 5) : Statement (.addImm dr sr1 imm5) := by
  have h : (0b0001#4 ++ regBits dr ++ regBits sr1 ++ 0b1#1 ++ imm5 : BitVec (4+3+3+1+5)) &&& (0xF#4 ++ 0#3 ++ 0#3 ++ 0b1#1 ++ 0#5) = 0x1020#(4+3+3+1+5) := by
    simp only [BitVec.and_append, BitVec.and_zero]; rfl
  exact h
theorem and (dr sr1 sr2 : Reg) : Statement (.and dr sr1 sr2) := by
  have h : (0b0101#4 ++ regBits dr ++ regBits sr1 ++ 0b000#3 ++ regBits sr2 : BitVec (4+3+3+3+3)) &&& (0xF#4 ++ 0#3 ++ 0#3 ++ 0b100#3 ++ 0#3) = 0x5000#(4+3+3+3+3) := by
    simp only [BitVec.and_append, BitVec.and_zero]; rfl
  exact h
theorem andImm (dr sr1 : Reg) (imm5 : BitVec 5) : Statement (.andImm dr sr1 imm5) := by
  have h : (0b0101#4 ++ regBits dr ++ regBits sr1 ++ 0b1#1 ++ imm5 : BitVec (4+3+3+1+5)) &&& (0xF#4 ++ 0#3 ++ 0#3 ++ 0b1#1 ++ 0#5) = 0x5020#(4+3+3+1+5) := by
    simp only [BitVec.and_append, BitVec.and_zero]; rfl
  exact h
theorem not (dr sr : Reg) : Statement (.not dr sr) := by
  have h : (0b1001#4 ++ regBits dr ++ regBits sr ++ 0b111111#6 : BitVec (4+3+3+6)) &&& (0xF#4 ++ 0#3 ++ 0#3 ++ 0#6) = 0x9000#(4+3+3+6) := by
    simp only [BitVec.and_append, BitVec.and_zero]; rfl
  exact h
theorem br (n z p : Bool) (offset9 : BitVec 9) : Statement (.br n z p offset9) := by
  have h : (0b0000#4 ++ BitVec.ofBool n ++ BitVec.ofBool z ++ BitVec.ofBool p ++ offset9 : BitVec (4+1+1+1+9)) &&& (0xF#4 ++ 0#1 ++ 0#1 ++ 0#1 ++ 0#9) = 0x0000#(4+1+1+1+9) := by
    simp only [BitVec.and_append, BitVec.and_zero]; rfl
  exact h
theorem jmp (baseR : Reg) : Statement (.jmp baseR) := by
  have h : (0b1100000#7 ++ regBits baseR ++ 0b000000#6 : BitVec (7+3+6)) &&& (0b1111000#7 ++ 0#3 ++ 0#6) = 0xC000#(7+3+6) := by
    simp only [BitVec.and_append, BitVec.and_zero]; rfl
  exact h
theorem jsr (offset11 : BitVec 11) : Statement (.jsr offset11) := by
  have h : (0b01001#5 ++ offset11 : BitVec (5+11)) &&& (0b11111#5 ++ 0#11) = 0x4800#(5+11) := by
    simp only [BitVec.and_append, BitVec.and_zero]; rfl
  exact h
theorem jsrr (baseR : Reg) : Statement (.jsrr baseR) := by
  have h : (0b0100000#7 ++ regBits baseR ++ 0b000000#6 : BitVec (7+3+6)) &&& (0b1111100#7 ++ 0#3 ++ 0#6) = 0x4000#(7+3+6) := by
    simp only [BitVec.and_append, BitVec.and_zero]; rfl
  exact h
theorem ld (dr : Reg) (offset9 : BitVec 9) : Statement (.ld dr offset9) := by
  have h : (0b0010#4 ++ regBits dr ++ offset9 : BitVec (4+3+9)) &&& (0xF#4 ++ 0#3 ++ 0#9) = 0x2000#(4+3+9) := by
    simp only [BitVec.and_append, BitVec.and_zero]; rfl
  exact h
theorem ldi (dr : Reg) (offset9 : BitVec 9) : Statement (.ldi dr offset9) := by
  have h : (0b1010#4 ++ regBits dr ++ offset9 : BitVec (4+3+9)) &&& (0xF#4 ++ 0#3 ++ 0#9) = 0xA000#(4+3+9) := by
    simp only [BitVec.and_append, BitVec.and_zero]; rfl
  exact h
theorem ldr (dr baseR : Reg) (offset6 : BitVec 6) : Statement (.ldr dr baseR offset6) := by
  have h : (0b0110#4 ++ regBits dr ++ regBits baseR ++ offset6 : BitVec (4+3+3+6)) &&& (0xF#4 ++ 0#3 ++ 0#3 ++ 0#6) = 0x6000#(4+3+3+6) := by
    simp only [BitVec.and_append, BitVec.and_zero]; rfl
  exact h
theorem lea (dr : Reg) (offset9 : BitVec 9) : Statement (.lea dr offset9) := by
  have h : (0b1110#4 ++ regBits dr ++ offset9 : BitVec (4+3+9)) &&& (0xF#4 ++ 0#3 ++ 0#9) = 0xE000#(4+3+9) := by
    simp only [BitVec.and_append, BitVec.and_zero]; rfl
  exact h
theorem st (sr : Reg) (offset9 : BitVec 9) : Statement (.st sr offset9) := by
  have h : (0b0011#4 ++ regBits sr ++ offset9 : BitVec (4+3+9)) &&& (0xF#4 ++ 0#3 ++ 0#9) = 0x3000#(4+3+9) := by
    simp only [BitVec.and_append, BitVec.and_zero]; rfl
  exact h
theorem sti (sr : Reg) (offset9 : BitVec 9) : Statement (.sti sr offset9) := by
  have h : (0b1011#4 ++ regBits sr ++ offset9 : BitVec (4+3+9)) &&& (0xF#4 ++ 0#3 ++ 0#9) = 0xB000#(4+3+9) := by
    simp only [BitVec.and_append, BitVec.and_zero]; rfl
  exact h
theorem str (sr baseR : Reg) (offset6 : BitVec 6) : Statement (.str sr baseR offset6) := by
  have h : (0b0111#4 ++ regBits sr ++ regBits baseR ++ offset6 : BitVec (4+3+3+6)) &&& (0xF#4 ++ 0#3 ++ 0#3 ++ 0#6) = 0x7000#(4+3+3+6) := by
    simp only [BitVec.and_append, BitVec.and_zero]; rfl
  exact h
theorem trapGetc : Statement .trapGetc := rfl
theorem trapOut : Statement .trapOut := rfl
theorem trapPuts : Statement .trapPuts := rfl
theorem trapIn : Statement .trapIn := rfl
theorem trapPutsp : Statement .trapPutsp := rfl
theorem trapHalt : Statement .trapHalt := rfl
theorem trapUnsupported (trapvect8 : Byte) : Statement (.trapUnsupported trapvect8) := by
  have h : (0b11110000#8 ++ trapvect8 : BitVec (8+8)) &&& (0xF0#8 ++ 0#8) = 0xF000#(8+8) := by
    simp only [BitVec.and_append, BitVec.and_zero]; rfl
  exact h
theorem rti : Statement .rti := rfl
theorem res : Statement .res := rfl

end Sys2Proof.Laws.MatchesTableRow
end

