-- ==== Sys2Proof/Tests/Slice0.lean ====
section
/-! SUPPORT. The model's own tests: the check of WellFormed, decoding, one-step vectors of 95_test_vectors.md (each named
with its id there), and for each statement with hypotheses a witness that meets them. -/

open Sys2Proof Sys2Proof.Machine Sys2Proof.Claims

namespace Sys2Proof.Tests

/-- The start of a vector: registers 0, COND = Z, no input, Running, no step in progress, and the word `w` at PC = `a`. -/
def start (a w : Word) : State :=
  { regs := #v[0, 0, 0, 0, 0, 0, 0, 0], pc := a, cond := .z, mem := Memory.write a.toNat w [], status := .running,
    out := [], flushed := 0, input := [], held := none }

/-- Whether the outcome is a next state that passes the check. -/
def nextIs (o : Host.Outcome State Fault Refusal) (check : State → Bool) : Bool :=
  match o with
  | .next t => check t
  | .fault _ => false
  | .refused _ => false

/-- Whether the step answers a next state that passes the check. -/
def ran (s : State) (check : State → Bool) : Bool := nextIs (step s) check

/-! ## WellFormed and the encodings -/

/-- The one check of WellFormed refuses a defined routine's vector, at both ends of the range (R66). -/
theorem test_wellFormed_refuses_routine_vectors :
    WellFormed (.trapUnsupported 0x20) = false ∧ WellFormed (.trapUnsupported 0x25) = false := by decide

theorem test_wellFormed_admits_other_vectors :
    WellFormed (.trapUnsupported 0x1F) = true ∧ WellFormed (.trapUnsupported 0x26) = true := by decide

/-- 41_operate.md: one word of each row, written out from its pattern (R57). -/
theorem test_decode_operate :
    decode 0b0001000001000010 = .add 0 1 2 ∧ decode 0b0001000000011000 = .add 0 0 0 ∧
    decode 0b0001010001100101 = .addImm 2 1 5 ∧ decode 0b0101010001000011 = .and 2 1 3 ∧
    decode 0b0101001010110000 = .andImm 1 2 0b10000 ∧ decode 0b1001001010000000 = .not 1 2 := by decide

/-- 42_control.md. -/
theorem test_decode_control :
    decode 0b0000101011111111 = .br true false true 0x0FF ∧ decode 0b0000000000000101 = .br false false false 5 ∧
    decode 0b1100000111000000 = .jmp 7 ∧ decode 0b0100110000000000 = .jsr 0x400 ∧
    decode 0b0100000001000000 = .jsrr 1 := by decide

/-- 43_load_store.md. -/
theorem test_decode_load_store :
    decode 0b0010000111111111 = .ld 0 0x1FF ∧ decode 0b1010011000000010 = .ldi 3 2 ∧
    decode 0b0110000001111111 = .ldr 0 1 0b111111 ∧ decode 0b1110010111111110 = .lea 2 0x1FE ∧
    decode 0b0011000000000000 = .st 0 0 ∧ decode 0b1011010000000001 = .sti 2 1 ∧
    decode 0b0111000001100000 = .str 0 1 0b100000 := by decide

/-- 44_trap.md and 45_reserved.md. -/
theorem test_decode_traps_and_reserved :
    decode 0b1111000000100000 = .trapGetc ∧ decode 0b1111000000100001 = .trapOut ∧
    decode 0b1111000000100010 = .trapPuts ∧ decode 0b1111000000100011 = .trapIn ∧
    decode 0b1111000000100100 = .trapPutsp ∧ decode 0b1111111100100101 = .trapHalt ∧
    decode 0b1111000000100110 = .trapUnsupported 0x26 ∧ decode 0b1000000000000000 = .rti ∧
    decode 0b1101111111111111 = .res := by decide

/-- The spec's example words are what the encoder writes (O2, W3, W4, O10, O11, B6, J2). -/
theorem test_encode_first_rows :
    encode (.add 0 1 2) = 0x1042 ∧ encode (.addImm 2 1 5) = 0x1465 ∧ encode (.and 2 1 3) = 0x5443 ∧
    encode (.andImm 1 2 0b10000) = 0x52B0 ∧ encode (.not 0 0) = 0x903F ∧
    encode (.br false false true 0x100) = 0x0300 ∧ encode (.jmp 7) = 0xC1C0 := by decide

theorem test_decodeTableWord : decodeTableWord 16 0x1465 = some (.addImm 2 1 5) ∧ decodeTableWord 32 0x1465 = none := by
  decide

/-- S1, S4, S6, S9 and W2. -/
theorem test_sext :
    sext5 0b10000 = 0xFFF0 ∧ sext6 0b100000 = 0xFFE0 ∧ sext9 0x100 = 0xFF00 ∧ sext11 0x400 = 0xFC00 ∧
    sext5 0b01111 = 0x000F := by decide

/-- F1 to F5. -/
theorem test_flags : flags 0x0000 = .z ∧ flags 0x0001 = .p ∧ flags 0x7FFF = .p ∧ flags 0x8000 = .n ∧ flags 0xFFFF = .n := by
  decide

/-! ## One step of each instruction -/

theorem test_add_O2 : ran (((start 0x3000 0x1042).setReg 1 0x7FFF).setReg 2 0x0001)
    (fun t => t.getReg 0 == 0x8000 && t.cond == .n && t.pc == 0x3001) = true := by decide

theorem test_add_O6 : ran ((start 0x3000 0x1018).setReg 0 1) (fun t => t.getReg 0 == 2 && t.cond == .p) = true := by decide

theorem test_addImm_O4 : ran ((start 0x3000 0x12A1).setReg 2 0xFFFF)
    (fun t => t.getReg 1 == 0 && t.cond == .z && t.pc == 0x3001) = true := by decide

theorem test_addImm_X4 : ran (start 0xFFFF 0x1021) (fun t => t.getReg 0 == 1 && t.cond == .p && t.pc == 0x0000) = true := by
  decide

theorem test_and_W4 : ran (((start 0x3000 0x5443).setReg 1 0b1100).setReg 3 0b1010)
    (fun t => t.getReg 2 == 0b1000 && t.cond == .p) = true := by decide

theorem test_andImm_O8 : ran ((start 0x3000 0x52BF).setReg 2 0x8001)
    (fun t => t.getReg 1 == 0x8001 && t.cond == .n) = true := by decide

theorem test_andImm_O9 : ran ((start 0x3000 0x52AF).setReg 2 0xFFFF)
    (fun t => t.getReg 1 == 0x000F && t.cond == .p) = true := by decide

theorem test_not_O13 : ran ((start 0x3000 0x903F).setReg 0 0x8000)
    (fun t => t.getReg 0 == 0x7FFF && t.cond == .p) = true := by decide

theorem test_not_O14 : ran ((start 0x3000 0x9280).setReg 2 0x1234)
    (fun t => t.getReg 1 == 0xEDCB && t.cond == .n) = true := by decide

theorem test_br_B4 : ran (start 0x3000 0x0802) (fun t => t.pc == 0x3001) = true := by decide

theorem test_br_B5 : ran ((start 0xFF80 0x0AFF).setCond .n) (fun t => t.pc == 0x0080 && t.cond == .n) = true := by decide

theorem test_jmp_J1 : ran ((start 0x3000 0xC080).setReg 2 0x1234) (fun t => t.pc == 0x1234) = true := by decide

theorem test_jmp_J2 : ran ((start 0x3000 0xC1C0).setReg 7 0x3005) (fun t => t.pc == 0x3005) = true := by decide

theorem test_jsr_J3 : ran (start 0x3000 0x4FFF) (fun t => t.getReg 7 == 0x3001 && t.pc == 0x3000) = true := by decide

theorem test_jsr_J5 : ran (start 0x0100 0x4C00) (fun t => t.getReg 7 == 0x0101 && t.pc == 0xFD01) = true := by decide

theorem test_jsrr_J6 : ran ((start 0x3002 0x40C0).setReg 3 0x0002)
    (fun t => t.getReg 7 == 0x3003 && t.pc == 0x3005) = true := by decide

theorem test_jsrr_J7 : ran ((start 0x3000 0x41C0).setReg 7 0x1234)
    (fun t => t.getReg 7 == 0x3001 && t.pc == 0x6002) = true := by decide

theorem test_ld_L1 : ran (start 0x3000 0x21FF) (fun t => t.getReg 0 == 0x21FF && t.cond == .p) = true := by decide

theorem test_ld_L3 : ran ((start 0xFDFF 0x2000).supplyInput (.char 0x41))
    (fun t => t.cell 0xFE00 == 0x8000 && t.cell 0xFE02 == 0x0041 && t.getReg 0 == 0x8000 && t.cond == .n &&
      t.pc == 0xFE00) = true := by decide

theorem test_ldi_W6 : ran (((start 0x3000 0xA602).memWrite 0x3003 0x5000).memWrite 0x5000 0xBEEF)
    (fun t => t.getReg 3 == 0xBEEF && t.cond == .n) = true := by decide

theorem test_ldi_L5 : ran (((start 0x3000 0xA004).memWrite 0x3005 0xFE00).supplyInput (.char 0x41))
    (fun t => t.getReg 0 == 0x8000 && t.cond == .n && t.cell 0xFE02 == 0x0041) = true := by decide

theorem test_ldr_L6 : ran (((start 0x3000 0x6241).setReg 1 0x4000).memWrite 0x4001 0x1234)
    (fun t => t.getReg 1 == 0x1234 && t.cond == .p) = true := by decide

theorem test_ldr_L7 : ran ((start 0x3000 0x607F).memWrite 0xFFFF 0xBEEF)
    (fun t => t.getReg 0 == 0xBEEF && t.cond == .n) = true := by decide

theorem test_lea_L8 : ran (start 0x3000 0xE007) (fun t => t.getReg 0 == 0x3008 && t.cond == .p) = true := by decide

theorem test_lea_L11 : ran (start 0xFE01 0xE1FE)
    (fun t => t.getReg 0 == 0xFE00 && t.cond == .n && t.pc == 0xFE02) = true := by decide

theorem test_st_L12 : ran ((start 0x3000 0x3000).setReg 0 0xF025)
    (fun t => t.cell 0x3001 == 0xF025 && ran t (fun u => u.status == .halted)) = true := by decide

theorem test_st_L16 : ran (((start 0xFDFF 0x3000).setReg 0 0x1234).supplyInput (.char 0x41))
    (fun t => t.cell 0xFE00 == 0x1234 && t.cell 0xFE02 == 0 && t.input == [.char 0x41]) = true := by decide

theorem test_sti_L13 : ran (((start 0x3005 0xB401).memWrite 0x3007 0x4000).setReg 2 0x002A)
    (fun t => t.cell 0x4000 == 0x002A && t.cond == .z) = true := by decide

theorem test_str_L14 : ran ((start 0x3000 0x7240).setReg 1 0x4000) (fun t => t.cell 0x4000 == 0x4000) = true := by decide

theorem test_str_L15 : ran (((start 0x3000 0x7060).setReg 0 0xAAAA).setReg 1 0x0010)
    (fun t => t.cell 0xFFF0 == 0xAAAA) = true := by decide

theorem test_getc_T3 : ran ((start 0x3000 0xF020).supplyInput (.char 0xE9))
    (fun t => t.getReg 0 == 0x00E9 && t.cond == .p && t.out == [] && t.cell 0xFE00 == 0 && t.cell 0xFE02 == 0) = true := by
  decide

/-- X7 under R73: the step holds with PC incremented, and then waits without a change. -/
theorem test_getc_X7 : ran (start 0x3000 0xF020)
    (fun t => t.held == some .trapGetc && t.pc == 0x3001 && t.out == [] && ran t (fun u => u.pc == 0x3001)) = true := by decide

theorem test_out_T5 : ran ((start 0x3000 0xF021).setReg 0 0x1241) (fun t => t.out == [0x41] && t.cond == .z) = true := by
  decide

theorem test_puts_T6 : ran ((((start 0x3000 0xF022).setReg 0 0x4000).memWrite 0x4000 0x0048).memWrite 0x4001 0x0169)
    (fun t => t.out == [0x48, 0x69] && t.pc == 0x3001) = true := by decide

theorem test_puts_T7 : ran ((((start 0x3000 0xF022).setReg 0 0xFFFF).memWrite 0xFFFF 0x0041).memWrite 0x0000 0x0042)
    (fun t => t.out == [0x41, 0x42]) = true := by decide

/-- T10, for whatever `in_prompt` is. -/
theorem test_in_T10 : ∃ t, step ((start 0x3000 0xF023).supplyInput (.char 0x71)) = .next t ∧
    t.out = Config.inPrompt ++ [0x71] ∧ t.getReg 0 = 0x0071 ∧ t.cond = .p :=
  ⟨_, rfl, rfl, by decide, rfl⟩

/-- R110: while IN holds, its prompt is emitted, and the event does not bring a second one. -/
theorem test_in_holds_with_prompt : ∃ t, step (start 0x3000 0xF023) = .next t ∧ t.out = Config.inPrompt ∧
    t.held = some .trapIn ∧ step t = .next t ∧
    ∃ u, step (t.supplyInput (.char 0x71)) = .next u ∧ u.out = Config.inPrompt ++ [0x71] ∧ u.held = none :=
  ⟨_, rfl, rfl, rfl, rfl, _, rfl, congrArg (· ++ [0x71]) (List.append_nil Config.inPrompt), rfl⟩

theorem test_putsp_T8 : ran ((((start 0x3000 0xF024).setReg 0 0x4000).memWrite 0x4000 0x6548).memWrite 0x4001 0x006C)
    (fun t => t.out == [0x48, 0x65, 0x6C]) = true := by decide

theorem test_putsp_T9 : ran (((start 0x3000 0xF024).setReg 0 0x4000).memWrite 0x4000 0x4100)
    (fun t => t.out == [0x00, 0x41]) = true := by decide

theorem test_halt_T11 : ∃ t, step (start 0x3006 0xF025) = .next t ∧ t.status = .halted ∧ t.pc = 0x3007 ∧
    t.flushed = t.out.length := ⟨_, rfl, rfl, rfl, rfl⟩

theorem test_halt_then_no_step : ∃ t, step (start 0x3006 0xF025) = .next t ∧ step t = .refused .runHalted :=
  ⟨_, rfl, rfl⟩

theorem test_trapUnsupported_T13 : ran (start 0x3000 0xF026)
    (fun t => t.status == .faulted (.unsupportedTrap 0x26 0x3000) && t.pc == 0x3001 && t.out == []) = true := by decide

theorem test_trapUnsupported_T15 : ran (start 0x3000 0xF01F)
    (fun t => t.status == .faulted (.unsupportedTrap 0x1F 0x3000)) = true := by decide

theorem test_rti_X1 : ran (start 0x3000 0x8000)
    (fun t => t == { start 0x3000 0x8000 with pc := 0x3001, status := .faulted (.unsupportedOpcode 0x8 0x3000) }) = true := by
  decide

theorem test_res_X2 : ran (start 0x4000 0xDFFF)
    (fun t => t.status == .faulted (.unsupportedOpcode 0xD 0x4000) && t.pc == 0x4001) = true := by decide

theorem test_fetch_X5 : ran ((start 0xFE00 0).supplyInput (.char 0x41))
    (fun t => t.status == .faulted (.unsupportedOpcode 0x8 0xFE00) && t.cell 0xFE02 == 0x0041) = true := by decide

theorem test_fetch_X6 : ran ((start 0xFE00 0).supplyInput .eof) (fun t => t.pc == 0xFE01 && t.cell 0xFE00 == 0) = true := by
  decide

/-- The first instruction after reset runs where `withFetchWord` puts it. -/
theorem test_withFetchWord : ran (State.reset.withFetchWord 16 0xE007) (fun t => t.getReg 0 == 0x3008) = true := by decide

/-- R135, R43: the image 30 00 F0 25. -/
theorem test_loadImage : nextIs ((start 0 0).loadImage [0x30, 0x00, 0xF0, 0x25]) (fun t => t.cell 0x3000 == 0xF025) = true := by
  decide

/-! ## Witnesses: for each statement with hypotheses, data that meets them, clause by clause, at the boundaries -/

theorem test_witness_DecodeOfEncode :
    WellFormed (.trapUnsupported 0x00) = true ∧ WellFormed (.trapUnsupported 0xFF) = true ∧
    WellFormed (.br true false true 0x100) = true := by decide

theorem test_witness_IgnoredBitsDoNotMatter :
    ((0x1042#16 ^^^ 0x105A#16) &&& ~~~ (ignoredBits 0x1042) = 0) ∧ ((0x8000#16 ^^^ 0x8FFF#16) &&& ~~~ (ignoredBits 0x8000) = 0) ∧
    ((0xF022#16 ^^^ 0xFF22#16) &&& ~~~ (ignoredBits 0xF022) = 0) ∧ ((0xC1C0#16 ^^^ 0xCFFF#16) &&& ~~~ (ignoredBits 0xC1C0) = 0) := by
  decide

theorem test_witness_TrapVectors :
    decode (0b1111#4 ++ 0xF#4 ++ 0x20#8) = .trapGetc ∧ decode (0b1111#4 ++ 0xF#4 ++ 0x21#8) = .trapOut ∧
    decode (0b1111#4 ++ 0xF#4 ++ 0x22#8) = .trapPuts ∧ decode (0b1111#4 ++ 0xF#4 ++ 0x23#8) = .trapIn ∧
    decode (0b1111#4 ++ 0xF#4 ++ 0x24#8) = .trapPutsp ∧ decode (0b1111#4 ++ 0xF#4 ++ 0x25#8) = .trapHalt ∧
    (0x1F#8).toNat < 0x20 ∧ 0x25 < (0x26#8).toNat := by decide

theorem test_witness_AndRegister : nextIs (exec (.and 0 1 2) (((start 0 0).setReg 1 0x8001).setReg 2 0x8003))
    (fun t => (t.getReg 0).getLsbD 0 && !(t.getReg 0).getLsbD 1 && (t.getReg 0).getLsbD 15) = true := by decide

theorem test_witness_AndImmediate : nextIs (exec (.andImm 0 1 0b10000) ((start 0 0).setReg 1 0x8031))
    (fun t => !(t.getReg 0).getLsbD 0 && (t.getReg 0).getLsbD 4 && (t.getReg 0).getLsbD 5 && (t.getReg 0).getLsbD 15) = true := by
  decide

theorem test_witness_BranchRule :
    nextIs (exec (.br false true false 0x1FF) (start 0 0)) (fun t => t.pc == 0xFFFF) = true ∧
    nextIs (exec (.br true false false 0x0FF) ((start 0 0).setCond .n)) (fun t => t.pc == 0x00FF) = true ∧
    nextIs (exec (.br false false true 0x100) ((start 0 0).setCond .p)) (fun t => t.pc == 0xFF00) = true ∧
    nextIs (exec (.br true false true 0x100) (start 0 0)) (fun t => t == start 0 0) = true := by decide

/-- The addresses next to KBSR are plain; KBSR polls a character, polls end of input, and holds. -/
theorem test_witness_LoadPcRelative :
    nextIs (exec (.ld 1 0) (start 0xFDFF 0x1234)) (fun t => t.getReg 1 == 0x1234) = true ∧
    nextIs (exec (.ld 1 0x100) (start 0xFF01 0x1234)) (fun t => t.getReg 1 == 0 && t.cond == .z) = true ∧
    nextIs (exec (.ld 1 0) ((start 0xFE00 0).setInput [.char 0x41])) (fun t => t.getReg 1 == 0x8000) = true ∧
    nextIs (exec (.ld 1 0) ((start 0xFE00 7).setInput [.eof])) (fun t => t.getReg 1 == 0 && t.cell 0xFE00 == 0) = true ∧
    nextIs (exec (.ld 1 0) (start 0xFE00 0)) (fun t => t == waiting (.ld 1 0) (start 0xFE00 0)) = true := by decide

theorem test_witness_LoadIndirect :
    nextIs (exec (.ldi 1 0) ((start 0xFDFF 0xFFFF).memWrite 0xFFFF 5)) (fun t => t.getReg 1 == 5) = true ∧
    nextIs (exec (.ldi 1 0) ((start 0xFDFF 0xFE00).setInput [.char 0x41, .eof]))
      (fun t => t.getReg 1 == 0x8000 && t.input == [.eof]) = true ∧
    nextIs (exec (.ldi 1 0) (((start 0xFE00 0).memWrite 0x8000 5).setInput [.char 0x41])) (fun t => t.getReg 1 == 5) = true ∧
    nextIs (exec (.ldi 1 0) (((start 0xFE00 9).memWrite 0 6).setInput [.eof])) (fun t => t.getReg 1 == 6) = true ∧
    nextIs (exec (.ldi 1 0) (start 0xFE00 0)) (fun t => t == waiting (.ldi 1 0) (start 0xFE00 0)) = true ∧
    nextIs (exec (.ldi 1 0) (start 0xFDFF 0xFE00)) (fun t => t == waiting (.ldi 1 0) (start 0xFDFF 0xFE00)) = true := by decide

theorem test_witness_LoadBaseOffset :
    nextIs (exec (.ldr 1 1 0b100000) (((start 0 0).setReg 1 0x0000).memWrite 0xFFE0 5)) (fun t => t.getReg 1 == 5) = true ∧
    nextIs (exec (.ldr 2 1 0) (((start 0 0).setReg 1 0xFE00).setInput [.char 0x41])) (fun t => t.getReg 2 == 0x8000) = true ∧
    nextIs (exec (.ldr 2 1 0) (((start 0 0).setReg 1 0xFE00).setInput [.eof])) (fun t => t.getReg 2 == 0) = true ∧
    nextIs (exec (.ldr 2 1 0) ((start 0 0).setReg 1 0xFE00)) (fun t => t == waiting (.ldr 2 1 0) ((start 0 0).setReg 1 0xFE00)) = true := by
  decide

theorem test_witness_StoreIndirect :
    nextIs (exec (.sti 1 0) ((start 0xFDFF 0xFE00).setReg 1 5)) (fun t => t.cell 0xFE00 == 5) = true ∧
    nextIs (exec (.sti 1 0) (((start 0xFE00 0).setReg 1 5).setInput [.char 0x41]))
      (fun t => t.cell 0x8000 == 5 && t.cell 0xFE00 == 0x8000 && t.cell 0xFE02 == 0x41) = true ∧
    nextIs (exec (.sti 1 0) (((start 0xFE00 9).setReg 1 5).setInput [.eof])) (fun t => t.cell 0 == 5 && t.cell 0xFE00 == 0) = true ∧
    nextIs (exec (.sti 1 0) (start 0xFE00 0)) (fun t => t == waiting (.sti 1 0) (start 0xFE00 0)) = true := by decide

theorem test_witness_GetcReadsOneCharacter :
    nextIs (exec .trapGetc ((start 0 0).setInput [.char 0xFF, .eof])) (fun t => t.getReg 0 == 0x00FF && t.input == [.eof]) = true ∧
    nextIs (exec .trapGetc ((start 0xFE00 9).setInput [.eof])) (fun t => t.cell 0xFE00 == 0 && t.input == []) = true ∧
    nextIs (exec .trapGetc (start 0 0)) (fun t => t.held == some .trapGetc && t.out == []) = true := by decide

theorem test_witness_InReadsAndEchoes :
    nextIs (exec .trapIn ((start 0 0).setInput [.char 0x00, .eof]))
      (fun t => t.getReg 0 == 0 && t.cond == .z && t.input == [.eof]) = true ∧
    nextIs (exec .trapIn ((start 0xFE00 9).setInput [.eof])) (fun t => t.cell 0xFE00 == 0 && t.input == []) = true ∧
    nextIs (exec .trapIn (start 0 0)) (fun t => t.held == some .trapIn) = true ∧
    nextIs (exec .trapIn ((start 0 0).setHeld (some .trapIn))) (fun t => t.out == []) = true := by decide

/-- A walk of one cell that ends, and one that meets KBSR with no event. -/
theorem test_witness_PutsIsTheLoop :
    (∃ t, Walk (fun c => [low8 c]) 0xFFFF (start 0xFFFF 0x41) (some t) ∧ t.out = [0x41]) ∧
    Walk (fun c => [low8 c]) 0xFDFF (start 0xFDFF 0x41) none :=
  ⟨⟨_, .emits (c := 0x41#16) rfl (by decide) (.ends rfl), rfl⟩, .emits (c := 0x41#16) rfl (by decide) (.holds rfl)⟩

theorem test_witness_PutspIsTheLoop :
    (∃ t, Walk pairCodes 0xFFFF (start 0xFFFF 0x4241) (some t) ∧ t.out = [0x41, 0x42]) ∧
    Walk pairCodes 0xFDFF (start 0xFDFF 0x41) none :=
  ⟨⟨_, .emits (c := 0x4241#16) rfl (by decide) (.ends rfl), rfl⟩, .emits (c := 0x41#16) rfl (by decide) (.holds rfl)⟩

/-- A string of one cell at 0xFFFF, whose terminator is at 0x0000. -/
theorem test_witness_PutsRoundTrip : StringAtR0 ((start 0xFFFF 0x41).setReg 0 0xFFFF) [0x41] := by
  refine ⟨by simp, ?_, by decide, ?_⟩
  · intro k h
    obtain rfl : k = 0 := by simpa using h
    rfl
  · intro k h
    have : k = 0 ∨ k = 1 := by simp at h; omega
    rcases this with rfl | rfl <;> decide

theorem test_witness_PutspRoundTrip : StringAtR0 ((start 0xFDFE 0x4241).setReg 0 0xFDFE) [0x4241] := by
  refine ⟨by simp, ?_, by decide, ?_⟩
  · intro k h
    obtain rfl : k = 0 := by simpa using h
    rfl
  · intro k h
    have : k = 0 ∨ k = 1 := by simp at h; omega
    rcases this with rfl | rfl <;> decide

theorem test_witness_WalkBoundSuffices :
    (start 0 0).walkFuel ≤ 65536 ∧ ((start 0 0).setInput [.eof]).walkFuel ≤ 131073 := by decide

theorem test_witness_UnsupportedTrapIsFatal :
    (0x00#8).toNat < 0x20 ∧ (0x1F#8).toNat < 0x20 ∧ 0x25 < (0x26#8).toNat ∧ 0x25 < (0xFF#8).toNat := by decide

theorem test_witness_ReadsAndPolls :
    (start 0xFDFF 3).memRead 0xFDFF = some (3, start 0xFDFF 3) ∧ (start 0xFE02 3).memRead 0xFE02 = some (3, start 0xFE02 3) ∧
    (start 0xFE00 3).memRead 0xFE00 = none ∧
    ((start 0xFE00 3).setInput [.char 0x41]).memRead 0xFE00 ≠ none ∧
    ((start 0xFE00 3).setInput [.eof]).memRead 0xFE00 ≠ none := by decide

theorem test_witness_CanonicalMemoryIsUnique : Memory.wf [(0, 1), (65535, 2)] = true ∧ Memory.wf [] = true := by decide

theorem test_witness_StepRunsTheDecodedInstruction :
    ((start 0xFDFF 0x1021).status = .running ∧ (start 0xFDFF 0x1021).held = none ∧ (start 0xFDFF 0x1021).pc ≠ 0xFE00#16) ∧
    (start 0xFDFF 0x1021).memRead 0xFDFF = some (0x1021, start 0xFDFF 0x1021) ∧
    ((start 0xFE00 0).setInput [.eof]).memRead 0xFE00 ≠ none ∧ (start 0 0).stopHalted.status ≠ .running := by decide

theorem test_witness_StepRunsTheEncodedInstruction :
    (start 0xFFFF 0xF026).status = .running ∧ (start 0xFFFF 0xF026).pc ≠ 0xFE00#16 ∧
    WellFormed (.trapUnsupported 0x26) = true ∧
    (start 0xFFFF 0xF026).cell (start 0xFFFF 0xF026).pc = encode (.trapUnsupported 0x26) := by decide

theorem test_witness_FetchAtKbsrPolls :
    (start 0xFE00 0xF025).status = .running ∧ (start 0xFE00 0xF025).pc = 0xFE00#16 ∧
    ran (start 0xFE00 0xF025) (fun t => t == start 0xFE00 0xF025) = true := by decide

theorem test_witness_InputTrapsHold :
    decode ((start 0xFFFF 0xF020).cell 0xFFFF) = .trapGetc ∧ decode ((start 0xFFFF 0xFF23).cell 0xFFFF) = .trapIn ∧
    (start 0xFFFF 0xFF23).input = [] ∧ (start 0xFFFF 0xFF23).status = .running := by decide

/-- Steps that hold: a load at KBSR, and IN. -/
theorem test_witness_HeldStepEffects :
    ran (start 0xFDFF 0x2000) (fun t => t.held == some (.ld 0 0) && t.pc == 0xFE00) = true ∧
    ran (start 0xFFFF 0xF023) (fun t => t.held == some .trapIn && t.pc == 0) = true ∧
    ran ((start 0 0).setHeld (some .trapGetc)) (fun t => t == (start 0 0).setHeld (some .trapGetc)) = true ∧
    ran (((start 0 0).setHeld (some .trapGetc)).setInput [.eof]) (fun t => t.held == none) = true := by decide

theorem test_witness_HeldStepEndsAlike :
    ran (start 0xFDFF 0x2000) (fun t => t.held != none && ran (t.supplyInput (.char 0x41)) (fun u =>
      u.getReg 0 == 0x8000 && u.held == none)) = true := by decide

/-- A step that ends the run by HALT, one that ends it in a fatal condition, one that goes on, one whose fetch
holds, and one that goes on after a hold. -/
theorem test_witness_RunEndsOnlyByHaltOrFatal :
    ran (start 0x3000 0xF025) (fun t => t.status == .halted) = true ∧
    ran (start 0x3000 0xD000) (fun t => t.status == .faulted (.unsupportedOpcode 0xD 0x3000)) = true ∧
    ran (start 0x3000 0x1021) (fun t => t.status == .running) = true ∧ (start 0xFE00 0).fetch = none ∧
    ran (((start 0 0).setHeld (some .trapGetc)).setInput [.eof]) (fun t => t.status == .running) = true := by decide

theorem test_witness_RegisterWriters :
    nextIs (exec (.jsr 0) (start 0x3000 0)) (fun t => t.getReg 7 != (start 0x3000 0).getReg 7) = true ∧
    nextIs (exec (.lea 3 1) (start 0x3000 0)) (fun t => t.getReg 3 != (start 0x3000 0).getReg 3) = true := by decide

theorem test_witness_CondWriters :
    writesCond (.st 0 0) = false ∧ nextIs (exec (.st 0 0) (start 0x3000 0)) (fun t => t.cond == .z) = true := by decide

theorem test_witness_CondIsReadOnlyByBranch :
    (∀ n z p off, Instr.jmp 3 ≠ .br n z p off) ∧ nextIs (exec (.jmp 3) (start 0x3000 0)) (fun t => t.pc == 0) = true := by
  exact ⟨fun _ _ _ _ h => Instr.noConfusion h, by decide⟩

theorem test_witness_PcWriters :
    nextIs (exec (.jmp 3) (start 0x3000 0)) (fun t => t.pc != 0x3000) = true := by decide

/-- A store, and a poll. -/
theorem test_witness_MemoryWriters :
    nextIs (exec (.st 1 0) ((start 0xFFFF 0).setReg 1 5)) (fun t => t.cell 0xFFFF != 0) = true ∧
    nextIs (exec (.ld 1 0) ((start 0xFE00 0).setInput [.char 0x41])) (fun t => t.cell 0xFE02 != 0) = true := by decide

theorem test_witness_OutputGrowsInputShrinks :
    ran ((start 0x3000 0xF021).setReg 0 0x41) (fun t => t.out == [0x41]) = true ∧
    ran ((start 0x3000 0xF020).setInput [.char 0x41]) (fun t => t.input == [] && t.status != .halted) = true ∧
    ran (start 0x3000 0xF025) (fun t => t.status == .halted) = true := by decide

theorem test_witness_StoreIsSeenByNextFetch :
    (start 0xFFFF 0x3E00).pc ≠ 0xFE00#16 ∧ (start 0xFFFF 0x3E00).pc + 1#16 ≠ 0xFE00#16 ∧
    (start 0xFFFF 0x3E00).cell 0xFFFF = 0b0011#4 ++ f3 7 ++ 0b000000000#9 := by decide

/-- JSR at 0xFFFF to a RET at 0xFC00, and the shortest call, to the next word. -/
theorem test_witness_CallThenReturn :
    ((start 0xFFFF 0x4C00).cell 0xFFFF = 0b01001#5 ++ 0x400#11 ∧
      ((start 0xFFFF 0x4C00).memWrite 0xFC00 0xC1C0).cell
        (BitVec.ofInt 16 ((start 0xFFFF 0x4C00).pc.toInt + 1 + (0x400#11).toInt)) = 0xC1C0#16) ∧
    ((start 0x3000 0x4800).memWrite 0x3001 0xC1C0).cell
        (BitVec.ofInt 16 ((start 0x3000 0x4800).pc.toInt + 1 + (0#11).toInt)) = 0xC1C0#16 := by decide

/-- The invariant of a state in which a step is in progress. -/
theorem test_witness_inv_held : ((start 0 0).setHeld (some .trapIn)).inv :=
  ⟨by decide, by decide, fun h => RunStatus.noConfusion h, fun i h => by
    obtain rfl : Instr.trapIn = i := by simpa using h
    exact ⟨rfl, rfl⟩⟩

theorem test_witness_StepKeepsInvariant :
    (start 0xFFFF 0xF021).inv ∧ ran (start 0xFFFF 0xF021) (fun t => t.pc == 0) = true :=
  ⟨⟨by decide, by decide, fun h => RunStatus.noConfusion h, fun _ h => by simp [start] at h⟩, by decide⟩

/-- The last cell of memory is the last that an image may fill. -/
theorem test_witness_ImageLoads :
    (0xFFFF#16).toNat + [5#16].length ≤ 65536 ∧ (0x0000#16).toNat + ([] : List Word).length ≤ 65536 ∧
    nextIs ((start 0 0).loadImage (imageBytes [0xFFFF, 5])) (fun t => t.cell 0xFFFF == 5) = true := by decide

theorem test_witness_MalformedImageIsRefused :
    [0x30#8, 0x00#8, 0xF0#8].length % 2 = 1 ∧ 65536 < (0xFFFF#16).toNat + [5#16, 6#16].length ∧
    nextIs ((start 0 0).loadImage (imageBytes [0xFFFF, 5, 6])) (fun _ => true) = false := by decide

theorem test_witness_LaunchSequence :
    nextIs (State.launch (fun _ => 3) (imageBytes [0x4000, 0xF025]) 0x4000)
      (fun t => t.pc == 0x4000 && t.cell 0x4000 == 0xF025 && t.getReg 7 == 3) = true := by decide

theorem test_witness_OutputAtTheEndOfARun :
    (∃ t, step (start 0x3000 0xF025) = .next t ∧ t.endedNormally) ∧
    (∃ t, step (start 0x3000 0x8000) = .next t ∧ t.endedAbnormally) := ⟨⟨_, rfl, rfl⟩, ⟨_, rfl, _, rfl⟩⟩

end Sys2Proof.Tests
end

section
/-! PROOFS. COND is not an input of any operation but the test of BR (R20, R21): each operation that an instruction is
built of commutes with a write of COND, or overwrites COND and so answers the same state. -/

namespace Sys2Proof.Machine

section
variable (s : State) (f : Flag)

/-! ## Operations that commute with a write of COND -/

theorem State.inputRead_setCond :
    (s.setCond f).inputRead = s.inputRead.map fun (e, t) => (e, t.setCond f) := by
  cases hi : s.input with
  | nil => rw [State.inputRead_nil hi, State.inputRead_nil (s := s.setCond f) hi]; rfl
  | cons e rest => rw [State.inputRead_cons hi, State.inputRead_cons (s := s.setCond f) hi]; rfl

/-- COND plays no part in a read (R37, R38). -/
theorem State.memRead_setCond (a : Word) :
    (s.setCond f).memRead a = (s.memRead a).map fun (v, t) => (v, t.setCond f) := by
  by_cases ha : a = Config.kbsrAddr
  · subst ha
    cases hi : s.input with
    | nil => rw [State.memRead_kbsr_nil hi, State.memRead_kbsr_nil (s := s.setCond f) hi]; rfl
    | cons e rest =>
      rw [State.memRead_kbsr_cons hi, State.memRead_kbsr_cons (s := s.setCond f) hi]; cases e <;> rfl
  · rw [State.memRead_plain s ha, State.memRead_plain _ ha]; rfl

/-- COND plays no part in a walk (R109, R111). -/
theorem State.stringWalk_setCond (codes : Word → List Byte) (n : Nat) (a : Word) :
    State.stringWalk codes n a (s.setCond f) = (State.stringWalk codes n a s).map (·.setCond f) := by
  induction n generalizing a s with
  | zero => rfl
  | succ n ih =>
    rw [State.stringWalk_succ, State.stringWalk_succ, State.memRead_setCond]
    rcases s.memRead a with _ | ⟨c, t⟩
    · rfl
    · dsimp only [Option.map_some]
      split
      · rfl
      · exact ih (t.emit (codes c)) (a + 1#16)

theorem State.putString_setCond (codes : Word → List Byte) :
    (s.setCond f).putString codes = (s.putString codes).map (·.setCond f) :=
  State.stringWalk_setCond s f codes s.walkFuel (s.getReg 0)

/-- The pointer read and the store of STI (R101). -/
theorem State.storeIndirect_setCond (sr : Reg) (pa : Word) :
    (((s.setCond f).memRead pa).map fun (p, t) => t.memWrite p (t.getReg sr)) =
      ((s.memRead pa).map fun (p, t) => t.memWrite p (t.getReg sr)).map (·.setCond f) := by
  rw [State.memRead_setCond, Option.map_map, Option.map_map]; rfl

/-! ## Operations that overwrite COND -/

theorem State.receive_setCond (e : InputEvent) : (s.setCond f).receive e = s.receive e := by cases e <;> rfl

theorem State.loadFrom_setCond (dr : Reg) (ea : Word) : (s.setCond f).loadFrom dr ea = s.loadFrom dr ea := by
  unfold State.loadFrom
  rw [State.memRead_setCond, Option.map_map]; rfl

/-- The two reads of LDI (R97). -/
theorem State.loadIndirect_setCond (dr : Reg) (pa : Word) :
    (((s.setCond f).memRead pa).bind fun (p, t) => t.loadFrom dr p) =
      (s.memRead pa).bind fun (p, t) => t.loadFrom dr p := by
  rw [State.memRead_setCond, Option.bind_map]
  congr 1
  funext ⟨p, t⟩
  exact State.loadFrom_setCond t f dr p

/-- An input event taken for an end that overwrites COND: the read of GETC and of IN (R107, R110). -/
theorem State.inputRead_map_setCond (k : InputEvent → State → State) (hk : ∀ e t, k e (t.setCond f) = k e t) :
    ((s.setCond f).inputRead.map fun (e, t) => k e t) = s.inputRead.map fun (e, t) => k e t := by
  rw [State.inputRead_setCond, Option.map_map]
  congr 1
  funext ⟨e, t⟩
  exact hk e t

/-! ## The hold -/

variable {i : Instr} {r r' : Option State}

/-- A wait, or an end that commutes with a write of COND. -/
theorem State.orHold_setCond_of_commutes (h : r' = r.map (·.setCond f)) :
    ((s.setCond f).orHold i r').setCond f = (s.orHold i r).setCond f := by
  subst h; cases r <;> rfl

/-- A wait, or an end that overwrites COND. -/
theorem State.orHold_setCond_of_overwrites (h : r' = r) :
    ((s.setCond f).orHold i r').setCond f = (s.orHold i r).setCond f := by
  subst h; cases r' <;> rfl

end

/-! ## Every instruction but BR -/

/-- With another value of COND an instruction other than BR answers a state that differs at most in COND (R20). -/
theorem exec_setCond (i : Instr) (s : State) (f : Flag) (hi : ∀ n z p off, i ≠ .br n z p off) :
    ∃ t u, exec i s = .next t ∧ exec i (s.setCond f) = .next u ∧ u.setCond f = t.setCond f := by
  cases i with
  | br n z p off => exact absurd rfl (hi n z p off)
  -- The straight-line instructions: both answers are the same chain of updates, by definition.
  | add | addImm | and | andImm | not | lea => exact ⟨_, _, rfl, rfl, rfl⟩
  | jmp | jsr | jsrr | st | str => exact ⟨_, _, rfl, rfl, rfl⟩
  | trapOut | trapHalt | trapUnsupported | rti | res => exact ⟨_, _, rfl, rfl, rfl⟩
  -- The instructions that can hold.
  | ld dr off =>
    exact ⟨_, _, rfl, rfl, State.orHold_setCond_of_overwrites s f
      (State.loadFrom_setCond s f dr (s.pcRel9 off))⟩
  | ldr dr baseR off =>
    exact ⟨_, _, rfl, rfl, State.orHold_setCond_of_overwrites s f
      (State.loadFrom_setCond s f dr (s.baseRel6 baseR off))⟩
  | ldi dr off =>
    exact ⟨_, _, rfl, rfl, State.orHold_setCond_of_overwrites s f
      (State.loadIndirect_setCond s f dr (s.pcRel9 off))⟩
  | sti sr off =>
    exact ⟨_, _, rfl, rfl, State.orHold_setCond_of_commutes s f
      (State.storeIndirect_setCond s f sr (s.pcRel9 off))⟩
  | trapPuts =>
    exact ⟨_, _, rfl, rfl, State.orHold_setCond_of_commutes s.trapLink f
      (State.putString_setCond s.trapLink f putsCodes)⟩
  | trapPutsp =>
    exact ⟨_, _, rfl, rfl, State.orHold_setCond_of_commutes s.trapLink f
      (State.putString_setCond s.trapLink f putspCodes)⟩
  | trapGetc =>
    exact ⟨_, _, rfl, rfl, State.orHold_setCond_of_overwrites s.trapLink f
      (State.inputRead_map_setCond s.trapLink f (fun e t => t.receive e) fun e t => State.receive_setCond t f e)⟩
  | trapIn =>
    exact ⟨_, _, rfl, rfl, State.orHold_setCond_of_overwrites s.prompted f
      (State.inputRead_map_setCond s.prompted f (fun e t => (t.emit (echo e)).receive e)
        fun e t => State.receive_setCond (t.emit (echo e)) f e)⟩

end Sys2Proof.Machine

open Sys2Proof Sys2Proof.Machine

/-- Settles O48: every operation of an instruction other than BR commutes with a write of COND or overwrites it. -/
theorem condIsReadOnlyByBranch : Obligations.CondIsReadOnlyByBranch := by
  intro i s t f hi h
  obtain ⟨t', u, ht, hu, hut⟩ := exec_setCond i s f hi
  obtain rfl : t' = t := Host.Outcome.next.inj (ht.symm.trans h)
  exact ⟨u, hu, hut⟩
end

section
/-! PROOFS. The write of memory (R40): the read-after-write rule gives the cells, and the field lemmas of `memWrite` the
frame. -/

open Sys2Proof.Claims

namespace Sys2Proof.Machine

/-- A write leaves every other cell as it was (R40). -/
theorem State.memWrite_cell_of_ne (s : State) {a b : Word} (v : Word) (h : b ≠ a) :
    (s.memWrite a v).cell b = s.cell b := by
  rw [State.memWrite_cell, if_neg h]

/-- The run fields are no part of a write (R40). -/
theorem State.memWrite_sameRun (s : State) (a v : Word) : SameRun s (s.memWrite a v) :=
  ⟨s.memWrite_status a v, s.memWrite_out a v, s.memWrite_flushed a v⟩

/-- The whole effect of a write: the store of `v` at `a`, for every address (R40). -/
theorem State.memWrite_stores (s : State) (a v : Word) : Stores a v s (s.memWrite a v) :=
  ⟨s.memWrite_cell_same a v, fun _ hb => s.memWrite_cell_of_ne v hb, fun r => s.memWrite_getReg a v r,
    s.memWrite_cond a v, s.memWrite_pc a v, s.memWrite_sameRun a v, s.memWrite_input a v⟩

end Sys2Proof.Machine

open Sys2Proof Sys2Proof.Machine

/-- Settles O37: a write is a store at its address, and the step in progress is no part of it. -/
theorem writesAreUnconditional : Obligations.WritesAreUnconditional := by
  intro s a v
  exact ⟨s.memWrite_stores a v, s.memWrite_held a v⟩
end

section
/-! PROOFS. Sign extension (R58): one lemma for every field width up to 16 ties the widening of bit vectors to the spec's
formula, whose two branches are the two values of the field's sign bit. -/

open Sys2Proof.Claims

namespace Sys2Proof.Machine

/-- The test of the formula, `v[N-1] == 1`, is on the sign bit of the field (R58). -/
theorem signBit_eq_one_iff_msb {n : Nat} (v : BitVec n) : v.toNat / 2 ^ (n - 1) % 2 = 1 ↔ v.msb = true := by
  rw [BitVec.msb_eq_getLsbD_last, ← BitVec.testBit_toNat, Nat.testBit_eq_decide_div_mod_eq, decide_eq_true_iff]

/-- A negative field has ones in bits n..15: `(v | (0xFFFF << N)) & 0xFFFF` (R58). -/
theorem signExtend_of_msb {n : Nat} (v : BitVec n) (h : v.msb = true) :
    v.signExtend 16 = (v.setWidth 16 ||| (0xFFFF#16 <<< n)) &&& 0xFFFF#16 := by
  have hmask : 0xFFFF#16 = BitVec.allOnes 16 := rfl
  rw [hmask, BitVec.and_allOnes]
  ext i hi
  by_cases hin : i < n
  · simp [BitVec.getElem_signExtend, hin]
  · have hones : (BitVec.allOnes 16)[i - n] = true := BitVec.getElem_allOnes (i - n) (by omega)
    simp [BitVec.getElem_signExtend, hin, h, hones, -BitVec.reduceAllOnes]

/-- The formula of R58 is the sign extension of bit vectors, at every field width. -/
theorem signExtend_eq_sextRule {n : Nat} (v : BitVec n) : v.signExtend 16 = sextRule n v.toNat := by
  unfold sextRule
  rw [BitVec.ofNat_toNat]
  by_cases h : v.msb = true
  · rw [if_pos ((signBit_eq_one_iff_msb v).mpr h), signExtend_of_msb v h]
  · rw [if_neg (mt (signBit_eq_one_iff_msb v).mp h),
      BitVec.signExtend_eq_setWidth_of_msb_false (Bool.eq_false_of_not_eq_true h)]

/-- What R58 says of one field: the word of the formula, and the field's own signed value when it fits in a word. -/
theorem signExtend_rule {n : Nat} (hn : n ≤ 16) (v : BitVec n) :
    v.signExtend 16 = sextRule n v.toNat ∧ (v.signExtend 16).toInt = v.toInt :=
  ⟨signExtend_eq_sextRule v, BitVec.toInt_signExtend_of_le hn⟩

end Sys2Proof.Machine

open Sys2Proof Sys2Proof.Machine

/-- Settles O6: each of the four extensions is the sign extension to a word from a width that fits in it. -/
theorem signExtension : Obligations.SignExtension := by
  refine ⟨?_, ?_, ?_, ?_⟩
  · exact signExtend_rule (n := 5) (by decide)
  · exact signExtend_rule (n := 6) (by decide)
  · exact signExtend_rule (n := 9) (by decide)
  · exact signExtend_rule (n := 11) (by decide)
end

section
/-! PROOFS. The execution cycle (R72, R74): the fetch increments the PC that the step began with, because a read, be it a
poll, leaves PC as it was. -/

namespace Sys2Proof.Machine

/-- The fetch by the result of its read: PC is one more than before the read (R74). -/
theorem fetch_of_memRead {s u : State} {ir : Word} (h : s.memRead s.pc = some (ir, u)) :
    s.fetch = some (ir, { u with pc := s.pc + 1#16 }) := by
  have hpc : u.pc = s.pc := (State.memRead_pollsOnly h).pc
  simp [State.fetch, h, State.incPc, State.setPc, hpc]

/-- The whole of a step whose fetch does not hold (R72). -/
theorem step_of_memRead {s u : State} {ir : Word} (hs : s.status = .running) (hn : s.held = none)
    (h : s.memRead s.pc = some (ir, u)) : step s = exec (decode ir) { u with pc := s.pc + 1#16 } :=
  step_of_fetch hs hn (fetch_of_memRead h)

end Sys2Proof.Machine

open Sys2Proof Sys2Proof.Machine

/-- Settles O39: the plain case is the general one with the pure read of the cell at PC, and a step that answers a next
state began Running. -/
theorem stepRunsTheDecodedInstruction : Obligations.StepRunsTheDecodedInstruction := by
  intro s
  refine ⟨?plain, ?read, ?notRunning⟩
  case plain =>
    intro hs hn hpc
    exact step_of_memRead hs hn (State.memRead_plain s hpc)
  case read =>
    intro hs hn ir u hr
    exact step_of_memRead hs hn hr
  case notRunning =>
    intro hs t ht
    obtain ⟨hrun, -⟩ := step_cases ht
    exact hs hrun
end

section
/-! PROOFS. The operate instructions (41_operate.md). Their words have one shape (R57), an opcode, two registers and six
bits of which the mode bit is the first: what the decoder answers on that shape is said once, and each row is a case of
it. Their effect is one flag-defining write (R80), proved once; what is left is the value that alu_16bit gives (R81 to
R83). -/

open Sys2Proof.Claims

namespace Sys2Proof.Machine

/-- The opcode map reads I[15:12] alone (R61). -/
theorem opOf_congr {v w : Word} (h : v.extractLsb' 12 4 = w.extractLsb' 12 4) : opOf v = opOf w := by
  have bit (k : Nat) (hk : k < 4) : v.getLsbD (12 + k) = w.getLsbD (12 + k) := by
    simpa [hk] using congrArg (BitVec.getLsbD · k) h
  unfold opOf
  rw [bit 3 (by decide), bit 2 (by decide), bit 1 (by decide), bit 0 (by decide)]

/-- A register field holds the register's number (R56). -/
theorem f3_toFin (r : Reg) : (f3 r).toFin = r := Fin.ext (Nat.mod_eq_of_lt r.isLt)

/-- The word with opcode `op`, DR, SR1 (SR of NOT) and I[5:0], the shape of every operate row (R57). -/
def operateWord (op : BitVec 4) (dr sr : Reg) (low : BitVec 6) : Word := op ++ f3 dr ++ f3 sr ++ low

/-- I[5:0] in register mode: the mode bit 0, two ignored bits, SR2 (R60, R65). -/
def registerMode (x : BitVec 2) (sr2 : Reg) : BitVec 6 := 0b0#1 ++ x ++ f3 sr2

/-- I[5:0] in immediate mode: the mode bit 1, imm5 (R60). -/
def immediateMode (imm5 : BitVec 5) : BitVec 6 := 0b1#1 ++ imm5

section
variable (op : BitVec 4) (dr sr : Reg) (low : BitVec 6) (x : BitVec 2) (sr2 : Reg) (imm5 : BitVec 5)

/-! ## The two modes -/

/-- The word of a register-mode row, as R57 writes it. -/
theorem append_eq_operateWord_registerMode :
    op ++ f3 dr ++ f3 sr ++ 0b0#1 ++ x ++ f3 sr2 = operateWord op dr sr (registerMode x sr2) := by
  have h : op ++ f3 dr ++ f3 sr ++ 0b0#1 ++ x = op ++ f3 dr ++ f3 sr ++ (0b0#1 ++ x) := BitVec.append_assoc
  rw [h]
  exact BitVec.append_assoc

/-- The word of an immediate-mode row, as R57 writes it. -/
theorem append_eq_operateWord_immediateMode :
    op ++ f3 dr ++ f3 sr ++ 0b1#1 ++ imm5 = operateWord op dr sr (immediateMode imm5) :=
  BitVec.append_assoc

theorem registerMode_modeBit : (registerMode x sr2).getLsbD 5 = false :=
  calc BitVec.getLsbD (0b0#1 ++ x ++ f3 sr2) 5
    _ = BitVec.getLsbD (0b0#1 ++ x) 2 := BitVec.getLsbD_append
    _ = false := BitVec.getLsbD_append

theorem registerMode_sr2 : ((registerMode x sr2).extractLsb' 0 3).toFin = sr2 := by
  have h : (registerMode x sr2).extractLsb' 0 3 = f3 sr2 := BitVec.extractLsb'_append_eq_right
  rw [h, f3_toFin]

theorem immediateMode_modeBit : (immediateMode imm5).getLsbD 5 = true := BitVec.getLsbD_append

theorem immediateMode_imm5 : (immediateMode imm5).extractLsb' 0 5 = imm5 := BitVec.extractLsb'_append_eq_right

/-! ## The fields of the word -/

theorem opOf_operateWord : opOf (operateWord op dr sr low) = opOf (op ++ 0#12) := by
  have h : (operateWord op dr sr low).extractLsb' 12 4 = op :=
    calc BitVec.extractLsb' 12 4 (op ++ f3 dr ++ f3 sr ++ low)
      _ = BitVec.extractLsb' 6 4 (op ++ f3 dr ++ f3 sr) := BitVec.extractLsb'_append_eq_of_le (by decide)
      _ = BitVec.extractLsb' 3 4 (op ++ f3 dr) := BitVec.extractLsb'_append_eq_of_le (by decide)
      _ = op := BitVec.extractLsb'_append_eq_left
  exact opOf_congr (h.trans BitVec.extractLsb'_append_eq_left.symm)

theorem fieldR11_operateWord : fieldR11 (operateWord op dr sr low) = dr := by
  have h : (operateWord op dr sr low).extractLsb' 9 3 = f3 dr :=
    calc BitVec.extractLsb' 9 3 (op ++ f3 dr ++ f3 sr ++ low)
      _ = BitVec.extractLsb' 3 3 (op ++ f3 dr ++ f3 sr) := BitVec.extractLsb'_append_eq_of_le (by decide)
      _ = BitVec.extractLsb' 0 3 (op ++ f3 dr) := BitVec.extractLsb'_append_eq_of_le (by decide)
      _ = f3 dr := BitVec.extractLsb'_append_eq_right
  rw [fieldR11, h, f3_toFin]

theorem fieldR8_operateWord : fieldR8 (operateWord op dr sr low) = sr := by
  have h : (operateWord op dr sr low).extractLsb' 6 3 = f3 sr :=
    calc BitVec.extractLsb' 6 3 (op ++ f3 dr ++ f3 sr ++ low)
      _ = BitVec.extractLsb' 0 3 (op ++ f3 dr ++ f3 sr) := BitVec.extractLsb'_append_eq_of_le (by decide)
      _ = f3 sr := BitVec.extractLsb'_append_eq_right
  rw [fieldR8, h, f3_toFin]

theorem fieldR2_operateWord : fieldR2 (operateWord op dr sr low) = (low.extractLsb' 0 3).toFin :=
  congrArg BitVec.toFin (BitVec.extractLsb'_append_eq_of_add_le (xhi := op ++ f3 dr ++ f3 sr) (by decide))

theorem fieldImm5_operateWord : fieldImm5 (operateWord op dr sr low) = low.extractLsb' 0 5 :=
  BitVec.extractLsb'_append_eq_of_add_le (xhi := op ++ f3 dr ++ f3 sr) (by decide)

theorem operateWord_modeBit : (operateWord op dr sr low).getLsbD 5 = low.getLsbD 5 :=
  BitVec.getLsbD_append (x := op ++ f3 dr ++ f3 sr)

/-! ## The rows -/

/-- The two rows of ADD (R60, R77). -/
theorem decode_operateWord_add :
    decode (operateWord 0b0001#4 dr sr low) =
      if low.getLsbD 5 then .addImm dr sr (low.extractLsb' 0 5) else .add dr sr (low.extractLsb' 0 3).toFin := by
  have hop : opOf (operateWord 0b0001#4 dr sr low) = .ADD := opOf_operateWord _ dr sr low
  simp only [decode, hop, operateWord_modeBit, fieldR11_operateWord, fieldR8_operateWord, fieldR2_operateWord,
    fieldImm5_operateWord]

/-- The two rows of AND (R60, R77). -/
theorem decode_operateWord_and :
    decode (operateWord 0b0101#4 dr sr low) =
      if low.getLsbD 5 then .andImm dr sr (low.extractLsb' 0 5) else .and dr sr (low.extractLsb' 0 3).toFin := by
  have hop : opOf (operateWord 0b0101#4 dr sr low) = .AND := opOf_operateWord _ dr sr low
  simp only [decode, hop, operateWord_modeBit, fieldR11_operateWord, fieldR8_operateWord, fieldR2_operateWord,
    fieldImm5_operateWord]

/-- The row of NOT, which does not look at I[5:0] (R65, R77). -/
theorem decode_operateWord_not : decode (operateWord 0b1001#4 dr sr low) = .not dr sr := by
  have hop : opOf (operateWord 0b1001#4 dr sr low) = .NOT := opOf_operateWord _ dr sr low
  simp only [decode, hop, fieldR11_operateWord, fieldR8_operateWord]

end

/-! ## The flag-defining write -/

/-- The flag by the value's number: bit 15 is set from 32768 on (R79). -/
theorem flags_eq_condOf (v : Word) : flags v = condOf v := by
  have hz : v = 0x0000#16 ↔ v.toNat = 0 := BitVec.toNat_inj.symm
  have hn : v.getLsbD 15 = true ↔ 32768 ≤ v.toNat := by
    rw [← BitVec.msb_eq_getLsbD_last, BitVec.msb_eq_decide, decide_eq_true_iff]
  simp only [flags, condOf, hz, hn]

/-- The whole effect of a flag-defining write (R80). -/
theorem State.setRegCc_computes (s : State) (r : Reg) (v : Word) : Computes r v s (s.setRegCc r v) := by
  have hsame : (s.setRegCc r v).getReg r = v := s.setReg_getReg_same r v
  have hcond : (s.setRegCc r v).cond = condOf v := flags_eq_condOf v
  have hother : SameRegsBut r s (s.setRegCc r v) := fun q hq => s.setReg_getReg_other r v q hq
  exact ⟨⟨hsame, hcond, hother, rfl, rfl, rfl, rfl⟩, fun _ => rfl, rfl, rfl⟩

/-! ## The values -/

/-- The unsigned sum modulo 2^16 (R81). -/
theorem aluAdd_eq_ofNat (a b : Word) : aluAdd a b = BitVec.ofNat 16 (a.toNat + b.toNat) := by
  rw [BitVec.ofNat_add, BitVec.ofNat_toNat, BitVec.ofNat_toNat, BitVec.setWidth_eq, BitVec.setWidth_eq, aluAdd]

/-- The signed sum modulo 2^16: the same word, because the carry is discarded (R81). -/
theorem aluAdd_eq_ofInt (a b : Word) : aluAdd a b = BitVec.ofInt 16 (a.toInt + b.toInt) := by
  rw [BitVec.ofInt_add, BitVec.ofInt_toInt, BitVec.ofInt_toInt, aluAdd]

/-- The complement, bitwise in R83, as a number. -/
theorem aluNot_eq_ofNat (a : Word) : aluNot a = BitVec.ofNat 16 (65535 - a.toNat) := by
  calc aluNot a
    _ = ~~~a := BitVec.xor_allOnes
    _ = BitVec.ofNat 16 (~~~a).toNat := by rw [BitVec.ofNat_toNat, BitVec.setWidth_eq]
    _ = BitVec.ofNat 16 (65535 - a.toNat) := by rw [BitVec.toNat_not]

theorem getLsbD_aluAnd (a b : Word) (k : Nat) : (aluAnd a b).getLsbD k = (a.getLsbD k && b.getLsbD k) :=
  BitVec.getLsbD_and

/-- The bits of the field are those of the extended word (R58). -/
theorem getLsbD_sext5_of_lt (v : BitVec 5) {k : Nat} (h : k < 5) : (sext5 v).getLsbD k = v.getLsbD k := by
  have hk : k < 16 := by omega
  simp only [sext5, BitVec.getLsbD_signExtend, h, hk, if_true, decide_true, Bool.true_and]

/-- The bits above the field are its sign bit (R58). -/
theorem getLsbD_sext5_of_le (v : BitVec 5) {k : Nat} (h : 5 ≤ k) (hk : k < 16) :
    (sext5 v).getLsbD k = v.getLsbD 4 := by
  have hge : ¬ k < 5 := by omega
  simp only [sext5, BitVec.getLsbD_signExtend, hge, hk, if_false, decide_true, Bool.true_and, BitVec.msb_eq_getLsbD_last]

end Sys2Proof.Machine

open Sys2Proof Sys2Proof.Machine

/-- Settles O8: the word of the row in register mode, and a flag-defining write of the unsigned sum. -/
theorem addRegister : Obligations.AddRegister := by
  refine ⟨?decodes, ?executes⟩
  case decodes =>
    intro dr sr1 sr2 x
    rw [append_eq_operateWord_registerMode, decode_operateWord_add, registerMode_modeBit, registerMode_sr2]
    rfl
  case executes =>
    intro dr sr1 sr2 s
    rw [← aluAdd_eq_ofNat]
    exact ⟨_, rfl, s.setRegCc_computes dr _⟩

/-- Settles O9: the word of the row in immediate mode, and a flag-defining write of the signed sum. -/
theorem addImmediate : Obligations.AddImmediate := by
  obtain ⟨hsext5, -⟩ := signExtension
  refine ⟨?decodes, ?executes⟩
  case decodes =>
    intro dr sr1 imm5
    rw [append_eq_operateWord_immediateMode, decode_operateWord_add, immediateMode_modeBit, immediateMode_imm5]
    rfl
  case executes =>
    intro dr sr1 imm5 s
    obtain ⟨-, hsigned⟩ := hsext5 imm5
    rw [← hsigned, ← aluAdd_eq_ofInt]
    exact ⟨_, rfl, s.setRegCc_computes dr _⟩

/-- Settles O10: the word of the row in register mode, and a flag-defining write of the bitwise and. -/
theorem andRegister : Obligations.AndRegister := by
  refine ⟨?decodes, ?executes⟩
  case decodes =>
    intro dr sr1 sr2 x
    rw [append_eq_operateWord_registerMode, decode_operateWord_and, registerMode_modeBit, registerMode_sr2]
    rfl
  case executes =>
    intro dr sr1 sr2 s
    exact ⟨_, _, rfl, s.setRegCc_computes dr _, fun k _ => getLsbD_aluAnd (s.getReg sr1) (s.getReg sr2) k⟩

/-- Settles O11: the word of the row in immediate mode, and a flag-defining write of the and with the sign extension,
whose bits are those of the field and then its sign bit. -/
theorem andImmediate : Obligations.AndImmediate := by
  refine ⟨?decodes, ?executes⟩
  case decodes =>
    intro dr sr1 imm5
    rw [append_eq_operateWord_immediateMode, decode_operateWord_and, immediateMode_modeBit, immediateMode_imm5]
    rfl
  case executes =>
    intro dr sr1 imm5 s
    refine ⟨_, _, rfl, s.setRegCc_computes dr _, ?fieldBits, ?signBits⟩
    case fieldBits =>
      intro k hk
      rw [getLsbD_aluAnd, getLsbD_sext5_of_lt imm5 hk]
    case signBits =>
      intro k hk hk'
      rw [getLsbD_aluAnd, getLsbD_sext5_of_le imm5 hk hk']

/-- Settles O12: the word of the row whatever its low six bits, and a flag-defining write of the complement. -/
theorem notComplements : Obligations.NotComplements := by
  refine ⟨?decodes, ?executes⟩
  case decodes =>
    intro dr sr x
    exact decode_operateWord_not dr sr x
  case executes =>
    intro dr sr s
    rw [← aluNot_eq_ofNat]
    exact ⟨_, rfl, s.setRegCc_computes dr _⟩
end

section
/-! PROOFS. Control transfer (42_control.md). The words: JMP has the shape of an operate row, and BR and JSR end in a wide
offset, above which the decoder looks at the opcode and the bits next to it. The effects: a jump is a write of PC, a call
is the link and a write of PC, and a PC-relative target is the signed sum modulo 2^16 (R76). -/

open Sys2Proof.Claims

namespace Sys2Proof.Machine

/-! ## The words -/

/-- The opcode map on a word whose I[15:12] is known (R55, R61). -/
theorem opOf_of_extract {w : Word} {op : BitVec 4} (h : w.extractLsb' 12 4 = op) : opOf w = opOf (op ++ 0#12) :=
  opOf_congr (h.trans BitVec.extractLsb'_append_eq_left.symm)

/-- The three bits of a register field are those of some register number (R56). -/
theorem f3_of_toFin (x : BitVec 3) : f3 x.toFin = x :=
  BitVec.eq_of_toNat_eq (Nat.mod_eq_of_lt x.isLt)

/-- The row of JMP, which does not look at I[11:9] and I[5:0] (R65, R77). -/
theorem decode_operateWord_jmp (r baseR : Reg) (low : BitVec 6) :
    decode (operateWord 0b1100#4 r baseR low) = .jmp baseR := by
  have hop : opOf (operateWord 0b1100#4 r baseR low) = .JMP := opOf_operateWord _ r baseR low
  simp only [decode, hop, fieldR8_operateWord]

/-- The word of JMP, as R57 writes it, with any ignored bits (R65, R91). -/
theorem decode_append_jmp (x : BitVec 3) (baseR : Reg) (y : BitVec 6) :
    decode (0b1100#4 ++ x ++ f3 baseR ++ y) = .jmp baseR := by
  have h := decode_operateWord_jmp x.toFin baseR y
  rwa [operateWord, f3_of_toFin] at h

/-- I[15:9] of BR: the opcode and the three condition bits (R57, R90). -/
def branchHead (n z p : Bool) : BitVec 7 := 0b0000#4 ++ BitVec.ofBool n ++ BitVec.ofBool z ++ BitVec.ofBool p

section
variable (n z p : Bool) (off : BitVec 9)

theorem opOf_branchHead_append : opOf (branchHead n z p ++ off) = .BR := by
  have hhead : (branchHead n z p).extractLsb' 3 4 = 0b0000#4 := by decide +revert
  have h : (branchHead n z p ++ off).extractLsb' 12 4 = (branchHead n z p).extractLsb' 3 4 :=
    BitVec.extractLsb'_append_eq_of_le (by decide)
  exact opOf_of_extract (h.trans hhead)

/-- The bits above offset9 are those of the head. -/
theorem getLsbD_branchHead_append (k : Nat) :
    (branchHead n z p ++ off).getLsbD (k + 9) = (branchHead n z p).getLsbD k := by
  rw [BitVec.getLsbD_append, if_neg (by omega), Nat.add_sub_cancel]

/-- The row of BR (R77, R90). -/
theorem decode_branchHead_append : decode (branchHead n z p ++ off) = .br n z p off := by
  have hn : (branchHead n z p ++ off).getLsbD 11 = n :=
    (getLsbD_branchHead_append n z p off 2).trans (by decide +revert)
  have hz : (branchHead n z p ++ off).getLsbD 10 = z :=
    (getLsbD_branchHead_append n z p off 1).trans (by decide +revert)
  have hp : (branchHead n z p ++ off).getLsbD 9 = p :=
    (getLsbD_branchHead_append n z p off 0).trans (by decide +revert)
  have hoff : fieldOff9 (branchHead n z p ++ off) = off := BitVec.extractLsb'_append_eq_right
  simp only [decode, opOf_branchHead_append, hn, hz, hp, hoff]

end

/-- The row of JSR (R60, R77, R92). -/
theorem decode_append_jsr (off : BitVec 11) : decode (0b01001#5 ++ off) = .jsr off := by
  have hopcode : (0b01001#5 ++ off).extractLsb' 12 4 = 0b0100#4 := BitVec.extractLsb'_append_eq_of_le (by decide)
  have hop : opOf (0b01001#5 ++ off) = .JSR := opOf_of_extract hopcode
  have hmode : (0b01001#5 ++ off).getLsbD 11 = true := BitVec.getLsbD_append
  have hoff : fieldOff11 (0b01001#5 ++ off) = off := BitVec.extractLsb'_append_eq_right
  simp only [decode, hop, hmode, hoff, if_true]

/-! ## The test of BR -/

/-- The test of BR is its first spelling (R90). -/
theorem branchTaken_iff (n z p : Bool) (c : Flag) :
    branchTaken n z p c = true ↔ (n = true ∧ c = .n) ∨ (z = true ∧ c = .z) ∨ (p = true ∧ c = .p) := by
  simp only [branchTaken, Bool.or_eq_true, Bool.and_eq_true, beq_iff_eq, or_assoc]

/-- The test of BR is its second spelling: COND as three bits has exactly one bit set, and so picks one condition bit
(R21, R90). -/
theorem branchTaken_iff_and_bits_ne_zero (n z p : Bool) (c : Flag) : branchTaken n z p c = true ↔
    ((BitVec.ofBool n ++ BitVec.ofBool z ++ BitVec.ofBool p : BitVec 3) &&& c.bits) ≠ 0 := by
  cases c <;> decide +revert

/-! ## The targets -/

/-- The target of BR is the signed sum modulo 2^16 (R76). -/
theorem State.pcRel9_eq_ofInt (s : State) (off : BitVec 9) :
    s.pcRel9 off = BitVec.ofInt 16 (s.pc.toInt + off.toInt) := by
  obtain ⟨-, hsigned⟩ := signExtend_rule (by decide) off
  rw [State.pcRel9, aluAdd_eq_ofInt, sext9, hsigned]

/-- The target of JSR is the signed sum modulo 2^16 (R76). -/
theorem State.pcRel11_eq_ofInt (s : State) (off : BitVec 11) :
    s.pcRel11 off = BitVec.ofInt 16 (s.pc.toInt + off.toInt) := by
  obtain ⟨-, hsigned⟩ := signExtend_rule (by decide) off
  rw [State.pcRel11, aluAdd_eq_ofInt, sext11, hsigned]

/-! ## The effects -/

/-- The whole effect of a write of PC. -/
theorem State.setPc_jumps (s : State) (target : Word) : Jumps target s (s.setPc target) :=
  ⟨s.setPc_pc target, fun r => s.setPc_getReg target r, s.setPc_cond target, fun a => s.setPc_cell target a,
    ⟨s.setPc_status target, s.setPc_out target, s.setPc_flushed target⟩, s.setPc_input target, s.setPc_held target⟩

/-- The whole effect of a call: the link and then the write of PC (R92, R93). -/
theorem State.link_setPc_calls (s : State) (target : Word) : Calls target s (s.link.setPc target) := by
  obtain ⟨hpc, hregs, hcond, hcells, hrun, hinput, hheld⟩ := s.link.setPc_jumps target
  have hlink : (s.link.setPc target).getReg 7 = s.pc := by rw [hregs, State.link_getReg, if_pos rfl]
  have hother : SameRegsBut 7 s (s.link.setPc target) := fun r hr => by rw [hregs, State.link_getReg, if_neg hr]
  exact ⟨hpc, hlink, hother, hcond, hcells, hrun, hinput, hheld⟩

end Sys2Proof.Machine

open Sys2Proof Sys2Proof.Machine

/-- Settles O13: the word of the row, the two spellings as the model's own test, and the two values of that test. -/
theorem branchRule : Obligations.BranchRule := by
  refine ⟨?decodes, ?spellings, ?executes⟩
  case decodes => exact decode_branchHead_append
  case spellings =>
    intro n z p c
    rw [← branchTaken_iff, branchTaken_iff_and_bits_ne_zero]
  case executes =>
    intro n z p off s
    rw [← branchTaken_iff, ← State.pcRel9_eq_ofInt]
    refine ⟨_, rfl, ?taken, ?notTaken⟩
    case taken =>
      intro h
      rw [if_pos h]
      exact s.setPc_jumps (s.pcRel9 off)
    case notTaken =>
      intro h
      exact if_neg h

/-- Settles O14: the word of the row whatever its ignored bits, and a write of PC. RET is the row with base register 7. -/
theorem jumpRule : Obligations.JumpRule := by
  refine ⟨decode_append_jmp, decode_append_jmp 0b000 7 0b000000, ?executes⟩
  intro baseR s
  exact ⟨_, rfl, s.setPc_jumps (s.getReg baseR)⟩

/-- Settles O15: the word of the row, and a call of the PC-relative target. -/
theorem callPcRelative : Obligations.CallPcRelative := by
  refine ⟨decode_append_jsr, ?executes⟩
  intro off s
  rw [← State.pcRel11_eq_ofInt]
  exact ⟨_, rfl, s.link_setPc_calls (s.pcRel11 off)⟩
end

section
/-! PROOFS. LEA and the stores that take no pointer (43_load_store.md). The words: LEA and ST are an opcode, a register
and offset9, whose fields are read once for every such row; STR has the shape of an operate row. The effects: LEA is a
flag-defining write, ST and STR are a write of memory, and the address is the signed sum modulo 2^16 (R76). -/

open Sys2Proof.Claims

namespace Sys2Proof.Machine

/-! ## The words -/

/-- The word with opcode `op`, a register and offset9, the shape of every row with offset9 but BR (R57). -/
def pcRelativeWord (op : BitVec 4) (r : Reg) (off : BitVec 9) : Word := op ++ f3 r ++ off

section
variable (op : BitVec 4) (r : Reg) (off : BitVec 9)

theorem opOf_pcRelativeWord : opOf (pcRelativeWord op r off) = opOf (op ++ 0#12) := by
  have h : (pcRelativeWord op r off).extractLsb' 12 4 = op :=
    calc BitVec.extractLsb' 12 4 (op ++ f3 r ++ off)
      _ = BitVec.extractLsb' 3 4 (op ++ f3 r) := BitVec.extractLsb'_append_eq_of_le (by decide)
      _ = op := BitVec.extractLsb'_append_eq_left
  exact opOf_of_extract h

theorem fieldR11_pcRelativeWord : fieldR11 (pcRelativeWord op r off) = r := by
  have h : (pcRelativeWord op r off).extractLsb' 9 3 = f3 r :=
    calc BitVec.extractLsb' 9 3 (op ++ f3 r ++ off)
      _ = BitVec.extractLsb' 0 3 (op ++ f3 r) := BitVec.extractLsb'_append_eq_of_le (by decide)
      _ = f3 r := BitVec.extractLsb'_append_eq_right
  rw [fieldR11, h, f3_toFin]

theorem fieldOff9_pcRelativeWord : fieldOff9 (pcRelativeWord op r off) = off := BitVec.extractLsb'_append_eq_right

end

/-- The row of LEA (R77, R99). -/
theorem decode_pcRelativeWord_lea (dr : Reg) (off : BitVec 9) :
    decode (pcRelativeWord 0b1110#4 dr off) = .lea dr off := by
  have hop : opOf (pcRelativeWord 0b1110#4 dr off) = .LEA := opOf_pcRelativeWord _ dr off
  simp only [decode, hop, fieldR11_pcRelativeWord, fieldOff9_pcRelativeWord]

/-- The row of ST (R77, R100). -/
theorem decode_pcRelativeWord_st (sr : Reg) (off : BitVec 9) :
    decode (pcRelativeWord 0b0011#4 sr off) = .st sr off := by
  have hop : opOf (pcRelativeWord 0b0011#4 sr off) = .ST := opOf_pcRelativeWord _ sr off
  simp only [decode, hop, fieldR11_pcRelativeWord, fieldOff9_pcRelativeWord]

/-- The last field of the shape as offset6 (R56). -/
theorem fieldOff6_operateWord (op : BitVec 4) (r baseR : Reg) (off : BitVec 6) :
    fieldOff6 (operateWord op r baseR off) = off :=
  BitVec.extractLsb'_append_eq_right

/-- The row of STR (R77, R102). -/
theorem decode_operateWord_str (sr baseR : Reg) (off : BitVec 6) :
    decode (operateWord 0b0111#4 sr baseR off) = .str sr baseR off := by
  have hop : opOf (operateWord 0b0111#4 sr baseR off) = .STR := opOf_operateWord _ sr baseR off
  simp only [decode, hop, fieldR11_operateWord, fieldR8_operateWord, fieldOff6_operateWord]

/-! ## The address -/

/-- The base-plus-offset address is the signed sum modulo 2^16 (R76). -/
theorem State.baseRel6_eq_ofInt (s : State) (baseR : Reg) (off : BitVec 6) :
    s.baseRel6 baseR off = BitVec.ofInt 16 ((s.getReg baseR).toInt + off.toInt) := by
  obtain ⟨-, hsigned⟩ := signExtend_rule (by decide) off
  rw [State.baseRel6, aluAdd_eq_ofInt, sext6, hsigned]

end Sys2Proof.Machine

open Sys2Proof Sys2Proof.Machine

/-- Settles O20: the word of the row, and a flag-defining write of the address, whatever cell it names. -/
theorem loadEffectiveAddress : Obligations.LoadEffectiveAddress := by
  refine ⟨decode_pcRelativeWord_lea, ?executes⟩
  intro dr off s
  rw [← State.pcRel9_eq_ofInt]
  exact ⟨_, rfl, s.setRegCc_computes dr (s.pcRel9 off)⟩

/-- Settles O21: the word of the row, and a write of SR at the PC-relative address. -/
theorem storePcRelative : Obligations.StorePcRelative := by
  refine ⟨decode_pcRelativeWord_st, ?executes⟩
  intro sr off s
  rw [← State.pcRel9_eq_ofInt]
  exact ⟨_, rfl, s.memWrite_stores (s.pcRel9 off) (s.getReg sr), s.memWrite_held _ _⟩

/-- Settles O23: the word of the row, and a write of SR at the base plus the offset. -/
theorem storeBaseOffset : Obligations.StoreBaseOffset := by
  refine ⟨decode_operateWord_str, ?executes⟩
  intro sr baseR off s
  rw [← State.baseRel6_eq_ofInt]
  exact ⟨_, rfl, s.memWrite_stores (s.baseRel6 baseR off) (s.getReg sr), s.memWrite_held _ _⟩
end

section
/-! PROOFS. The traps that read nothing: OUT, HALT and a TRAP with an unsupported vector (44_trap.md). The words: the
decoder answers the row of the vector in I[7:0], whatever I[11:8]. The effects: each of the three is the optional link
and then operations on the output and the run status, which keep registers, COND, PC and cells (R105, R106). -/

open Sys2Proof.Claims

namespace Sys2Proof.Machine

/-! ## The words -/

/-- A TRAP word is decoded from its vector alone, I[11:8] being ignored (R65, R105). -/
theorem decode_append_trap (x : BitVec 4) (v : Byte) : decode (0b1111#4 ++ x ++ v) = decodeTrap v := by
  have hopcode : (0b1111#4 ++ x ++ v).extractLsb' 12 4 = 0b1111#4 :=
    calc BitVec.extractLsb' 12 4 (0b1111#4 ++ x ++ v)
      _ = BitVec.extractLsb' 4 4 (0b1111#4 ++ x) := BitVec.extractLsb'_append_eq_of_le (by decide)
      _ = 0b1111#4 := BitVec.extractLsb'_append_eq_left
  have hop : opOf (0b1111#4 ++ x ++ v) = .TRAP := opOf_of_extract hopcode
  have hvect : fieldVect8 (0b1111#4 ++ x ++ v) = v := BitVec.extractLsb'_append_eq_right
  simp only [decode, hop, hvect]

/-- A vector outside 0x20 to 0x25 is that of no routine (R66, R113). -/
theorem decodeTrap_of_unsupported {v : Byte} (hv : v.toNat < 0x20 ∨ 0x25 < v.toNat) :
    decodeTrap v = .trapUnsupported v := by
  have hne (k : Byte) (hk : 0x20 ≤ k.toNat ∧ k.toNat ≤ 0x25) : v ≠ k := by
    rintro rfl
    omega
  rw [decodeTrap, if_neg (hne 0x20#8 (by decide)), if_neg (hne 0x21#8 (by decide)), if_neg (hne 0x22#8 (by decide)),
    if_neg (hne 0x23#8 (by decide)), if_neg (hne 0x24#8 (by decide)), if_neg (hne 0x25#8 (by decide))]

/-! ## The effects -/

/-- The low byte of a word is its number's residue (R43). -/
theorem lowByte_eq_low8 (w : Word) : lowByte w = low8 w := rfl

/-- The link does not touch R0, the operand of OUT (R105, R108). -/
theorem State.trapLink_getReg_zero (s : State) : s.trapLink.getReg 0 = s.getReg 0 := by
  have h : ¬ ((0 : Reg) = 7 ∧ Config.trapLinksR7 = true) := fun ⟨h, _⟩ => absurd h (by decide)
  rw [State.trapLink_getReg, if_neg h]

/-- The optional link writes R7 alone (R105, R106). -/
theorem State.trapLink_keeps (s : State) : TrapKeeps s s.trapLink :=
  ⟨s.trapLink_getReg, s.trapLink_cond, s.trapLink_pc⟩

/-- The registers, COND and PC after the link stay as they are through operations that write none of them. -/
theorem trapKeeps_of_same {s u t : State} (h : TrapKeeps s u) (hregs : SameRegs u t) (hcond : t.cond = u.cond)
    (hpc : t.pc = u.pc) : TrapKeeps s t := by
  obtain ⟨hlink, hcond', hpc'⟩ := h
  exact ⟨fun r => (hregs r).trans (hlink r), hcond.trans hcond', hpc.trans hpc'⟩

theorem State.trapLink_emit_keeps (s : State) (codes : List Byte) : TrapKeeps s (s.trapLink.emit codes) :=
  trapKeeps_of_same s.trapLink_keeps (s.trapLink.emit_getReg codes) (s.trapLink.emit_cond codes)
    (s.trapLink.emit_pc codes)

end Sys2Proof.Machine

open Sys2Proof Sys2Proof.Machine

/-- Settles O25: the word of the vector 0x21, and one code emitted after the link, which leaves R0 as it was. -/
theorem outWritesOneCharacter : Obligations.OutWritesOneCharacter := by
  refine ⟨fun x => decode_append_trap x 0x21#8, ?executes⟩
  intro s
  refine ⟨_, rfl, ?output, s.trapLink_emit_keeps _, fun _ => rfl, rfl, rfl, rfl, rfl⟩
  case output => rw [State.emit_out, State.trapLink_out, State.trapLink_getReg_zero, lowByte_eq_low8]

/-- Settles O32: the word of the vector 0x25, and the message, the flush and the stop after the link. -/
theorem haltStopsTheRun : Obligations.HaltStopsTheRun := by
  refine ⟨fun x => decode_append_trap x 0x25#8, ?executes⟩
  intro s
  have hkeeps : TrapKeeps s (s.trapLink.emit Config.haltMessage).flush.stopHalted :=
    trapKeeps_of_same (s.trapLink_emit_keeps Config.haltMessage) (fun _ => rfl) rfl rfl
  exact ⟨_, rfl, rfl, rfl, rfl, hkeeps, fun _ => rfl, rfl, rfl⟩

/-- Settles O33: the words of the other vectors, and the fatal condition raised after the link. -/
theorem unsupportedTrapIsFatal : Obligations.UnsupportedTrapIsFatal := by
  refine ⟨?decodes, ?executes⟩
  case decodes =>
    intro x v hv
    rw [decode_append_trap, decodeTrap_of_unsupported hv]
  case executes =>
    intro v s
    have hkeeps : TrapKeeps s (s.trapLink.raise (.unsupportedTrap v s.instrAddr)) :=
      trapKeeps_of_same s.trapLink_keeps (fun _ => rfl) rfl rfl
    exact ⟨_, rfl, rfl, hkeeps, fun _ => rfl, rfl, rfl, rfl, rfl⟩
end

section
/-! PROOFS. The reserved opcodes (45_reserved.md). The words: RTI and RES have no fields, so the decoder looks at the
opcode alone. The effects: each raises its fatal condition, and a raise writes the run status and nothing else (R118). -/

open Sys2Proof.Claims

namespace Sys2Proof.Machine

/-! ## The words -/

/-- The opcode map on an opcode followed by any other twelve bits (R61). -/
theorem opOf_append (op : BitVec 4) (x : BitVec 12) : opOf (op ++ x) = opOf (op ++ 0#12) :=
  opOf_of_extract BitVec.extractLsb'_append_eq_left

/-- The row of RTI, which looks at no other bit than those of the opcode (R65, R77, R114). -/
theorem decode_append_rti (x : BitVec 12) : decode (0b1000#4 ++ x) = .rti := by
  have hop : opOf (0b1000#4 ++ x) = .RTI := opOf_append _ x
  simp only [decode, hop]

/-- The row of RES, which looks at no other bit than those of the opcode (R65, R77, R115). -/
theorem decode_append_res (x : BitVec 12) : decode (0b1101#4 ++ x) = .res := by
  have hop : opOf (0b1101#4 ++ x) = .RES := opOf_append _ x
  simp only [decode, hop]

/-! ## The effect -/

/-- The run ends in the fatal condition `f`, and nothing but the run status differs (R118). -/
def Raises (f : Fault) (s t : State) : Prop :=
  t.status = .faulted f ∧ SameRegs s t ∧ t.cond = s.cond ∧ t.pc = s.pc ∧ SameCells s t ∧ t.out = s.out ∧
    t.flushed = s.flushed ∧ t.input = s.input ∧ t.held = s.held

/-- The whole effect of `raise`. -/
theorem State.raise_raises (s : State) (f : Fault) : Raises f s (s.raise f) :=
  ⟨s.raise_status f, fun r => s.raise_getReg f r, s.raise_cond f, s.raise_pc f, fun a => s.raise_cell f a,
    s.raise_out f, s.raise_flushed f, s.raise_input f, s.raise_held f⟩

end Sys2Proof.Machine

open Sys2Proof Sys2Proof.Machine

/-- Settles O34: the words of opcode 0x8, and the fatal condition raised with that opcode at PC' - 1. -/
theorem rtiIsFatal : Obligations.RtiIsFatal := by
  refine ⟨decode_append_rti, ?executes⟩
  intro s
  exact ⟨_, rfl, s.raise_raises (.unsupportedOpcode 0x8#4 s.instrAddr)⟩

/-- Settles O35: the words of opcode 0xD, and the fatal condition raised with that opcode at PC' - 1. -/
theorem resIsFatal : Obligations.ResIsFatal := by
  refine ⟨decode_append_res, ?executes⟩
  intro s
  exact ⟨_, rfl, s.raise_raises (.unsupportedOpcode 0xD#4 s.instrAddr)⟩
end

section
/-! PROOFS. The decoder (30_encoding.md). The record: each field is a range of bits, and so a quotient and a residue
of the word's number. The rows that the sections above leave: JSRR, the loads and STI. Then each row's encoding is one
of the shapes on which the decoder's answer is known. -/

open Sys2Proof.Claims

namespace Sys2Proof.Machine

/-! ## The record -/

/-- A range of bits as a number (R9). -/
theorem toNat_extractLsb' (w : Word) (start len : Nat) :
    (w.extractLsb' start len).toNat = w.toNat / 2 ^ start % 2 ^ len := by
  rw [BitVec.extractLsb'_toNat, Nat.shiftRight_eq_div_pow]

/-- A field that ends at bit 0 as a number (R9). -/
theorem toNat_extractLsb'_zero (w : Word) (len : Nat) : (w.extractLsb' 0 len).toNat = w.toNat % 2 ^ len := by
  rw [toNat_extractLsb', Nat.pow_zero, Nat.div_one]

/-- A single bit as a number (R9). -/
theorem getLsbD_iff_toNat (w : Word) (k : Nat) : w.getLsbD k = true ↔ w.toNat / 2 ^ k % 2 = 1 := by
  rw [← BitVec.testBit_toNat, Nat.testBit_eq_decide_div_mod_eq, decide_eq_true_iff]

/-- The opcode number is I[15:12] (R55, R61). -/
theorem opNumber_opOf (w : Word) : opNumber (opOf w) = (w.extractLsb' 12 4).toNat := by
  have hall : ∀ op : BitVec 4, opNumber (opOf (op ++ 0#12)) = op.toNat := by decide
  rw [opOf_of_extract (w := w) rfl, hall]

/-- I[15:12] of a word whose opcode is known (R61). -/
theorem extract_of_opOf {w : Word} {o : Op} (h : opOf w = o) : w.extractLsb' 12 4 = BitVec.ofNat 4 (opNumber o) := by
  rw [← h, opNumber_opOf, BitVec.ofNat_toNat, BitVec.setWidth_eq]

/-- A sign-extended field that ends at bit 0, by the spec's formula (R56, R58). -/
theorem signExtend_low_eq_sextRule (w : Word) (n : Nat) :
    (w.extractLsb' 0 n).signExtend 16 = sextRule n (w.toNat % 2 ^ n) := by
  rw [signExtend_eq_sextRule, toNat_extractLsb'_zero]

/-! ## The rows of JSRR, the loads and STI -/

/-- The row of JSRR, which does not look at I[10:9] and I[5:0] (R60, R65, R77, R93). -/
theorem decode_append_jsrr (x : BitVec 2) (baseR : Reg) (y : BitVec 6) :
    decode (0b01000#5 ++ x ++ f3 baseR ++ y) = .jsrr baseR := by
  have hopcode : (0b01000#5 ++ x ++ f3 baseR ++ y).extractLsb' 12 4 = 0b0100#4 :=
    calc BitVec.extractLsb' 12 4 (0b01000#5 ++ x ++ f3 baseR ++ y)
      _ = BitVec.extractLsb' 6 4 (0b01000#5 ++ x ++ f3 baseR) := BitVec.extractLsb'_append_eq_of_le (by decide)
      _ = BitVec.extractLsb' 3 4 (0b01000#5 ++ x) := BitVec.extractLsb'_append_eq_of_le (by decide)
      _ = BitVec.extractLsb' 1 4 0b01000#5 := BitVec.extractLsb'_append_eq_of_le (by decide)
  have hop : opOf (0b01000#5 ++ x ++ f3 baseR ++ y) = .JSR := opOf_of_extract hopcode
  have hmode : (0b01000#5 ++ x ++ f3 baseR ++ y).getLsbD 11 = false :=
    calc BitVec.getLsbD (0b01000#5 ++ x ++ f3 baseR ++ y) 11
      _ = BitVec.getLsbD (0b01000#5 ++ x ++ f3 baseR) 5 := BitVec.getLsbD_append
      _ = BitVec.getLsbD (0b01000#5 ++ x) 2 := BitVec.getLsbD_append
      _ = false := BitVec.getLsbD_append
  have hbase : (0b01000#5 ++ x ++ f3 baseR ++ y).extractLsb' 6 3 = f3 baseR :=
    calc BitVec.extractLsb' 6 3 (0b01000#5 ++ x ++ f3 baseR ++ y)
      _ = BitVec.extractLsb' 0 3 (0b01000#5 ++ x ++ f3 baseR) := BitVec.extractLsb'_append_eq_of_le (by decide)
      _ = f3 baseR := BitVec.extractLsb'_append_eq_right
  simp only [decode, hop, hmode, fieldR8, hbase, f3_toFin, Bool.false_eq_true, if_false]

/-- The row of LD (R77, R96). -/
theorem decode_pcRelativeWord_ld (dr : Reg) (off : BitVec 9) :
    decode (pcRelativeWord 0b0010#4 dr off) = .ld dr off := by
  have hop : opOf (pcRelativeWord 0b0010#4 dr off) = .LD := opOf_pcRelativeWord _ dr off
  simp only [decode, hop, fieldR11_pcRelativeWord, fieldOff9_pcRelativeWord]

/-- The row of LDI (R77, R97). -/
theorem decode_pcRelativeWord_ldi (dr : Reg) (off : BitVec 9) :
    decode (pcRelativeWord 0b1010#4 dr off) = .ldi dr off := by
  have hop : opOf (pcRelativeWord 0b1010#4 dr off) = .LDI := opOf_pcRelativeWord _ dr off
  simp only [decode, hop, fieldR11_pcRelativeWord, fieldOff9_pcRelativeWord]

/-- The row of STI (R77, R101). -/
theorem decode_pcRelativeWord_sti (sr : Reg) (off : BitVec 9) :
    decode (pcRelativeWord 0b1011#4 sr off) = .sti sr off := by
  have hop : opOf (pcRelativeWord 0b1011#4 sr off) = .STI := opOf_pcRelativeWord _ sr off
  simp only [decode, hop, fieldR11_pcRelativeWord, fieldOff9_pcRelativeWord]

/-- The row of LDR (R77, R98). -/
theorem decode_operateWord_ldr (dr baseR : Reg) (off : BitVec 6) :
    decode (operateWord 0b0110#4 dr baseR off) = .ldr dr baseR off := by
  have hop : opOf (operateWord 0b0110#4 dr baseR off) = .LDR := opOf_operateWord _ dr baseR off
  simp only [decode, hop, fieldR11_operateWord, fieldR8_operateWord, fieldOff6_operateWord]

/-! ## The encoder's words -/

/-- The encoder and the statements write a register field alike (R56). -/
theorem regBits_eq_f3 (r : Reg) : regBits r = f3 r := (f3_of_toFin (regBits r)).symm

section
variable (op : BitVec 4) (a b c : Reg)

/-- Register mode as the encoder writes it, with the mode bit and its neighbours as one field. -/
theorem append_regBits_eq_registerMode :
    op ++ regBits a ++ regBits b ++ 0b000#3 ++ regBits c = operateWord op a b (registerMode 0b00#2 c) := by
  rw [regBits_eq_f3, regBits_eq_f3, regBits_eq_f3]
  exact BitVec.append_assoc

/-- Immediate mode as the encoder writes it. -/
theorem append_regBits_eq_immediateMode (imm5 : BitVec 5) :
    op ++ regBits a ++ regBits b ++ 0b1#1 ++ imm5 = operateWord op a b (immediateMode imm5) := by
  rw [regBits_eq_f3, regBits_eq_f3]
  exact append_eq_operateWord_immediateMode op a b imm5

theorem append_regBits_eq_operateWord (low : BitVec 6) :
    op ++ regBits a ++ regBits b ++ low = operateWord op a b low := by
  rw [regBits_eq_f3, regBits_eq_f3, operateWord]

theorem append_regBits_eq_pcRelativeWord (off : BitVec 9) : op ++ regBits a ++ off = pcRelativeWord op a off := by
  rw [regBits_eq_f3, pcRelativeWord]

end

/-- The vectors of the six routines are decoded before the row of the unsupported trap (R66). -/
theorem decodeTrap_of_not_routine {v : Byte} (h : isRoutineVector v = false) : decodeTrap v = .trapUnsupported v := by
  apply decodeTrap_of_unsupported
  rw [isRoutineVector, Bool.and_eq_false_iff, decide_eq_false_iff_not, decide_eq_false_iff_not, BitVec.le_def,
    BitVec.le_def] at h
  rwa [← not_le, ← not_le]

end Sys2Proof.Machine

open Sys2Proof Sys2Proof.Machine

/-- Settles O2: each row's encoding is a word on which the decoder's answer is known. -/
theorem decodeOfEncode : Obligations.DecodeOfEncode := by
  intro i hi
  cases i with
  | add dr sr1 sr2 =>
    rw [encode, append_regBits_eq_registerMode, decode_operateWord_add, registerMode_modeBit, registerMode_sr2]; rfl
  | addImm dr sr1 imm5 =>
    rw [encode, append_regBits_eq_immediateMode, decode_operateWord_add, immediateMode_modeBit, immediateMode_imm5]; rfl
  | and dr sr1 sr2 =>
    rw [encode, append_regBits_eq_registerMode, decode_operateWord_and, registerMode_modeBit, registerMode_sr2]; rfl
  | andImm dr sr1 imm5 =>
    rw [encode, append_regBits_eq_immediateMode, decode_operateWord_and, immediateMode_modeBit, immediateMode_imm5]; rfl
  | not dr sr => rw [encode, append_regBits_eq_operateWord, decode_operateWord_not]
  | ldr dr baseR off => rw [encode, append_regBits_eq_operateWord, decode_operateWord_ldr]
  | str sr baseR off => rw [encode, append_regBits_eq_operateWord, decode_operateWord_str]
  | ld dr off => rw [encode, append_regBits_eq_pcRelativeWord, decode_pcRelativeWord_ld]
  | ldi dr off => rw [encode, append_regBits_eq_pcRelativeWord, decode_pcRelativeWord_ldi]
  | lea dr off => rw [encode, append_regBits_eq_pcRelativeWord, decode_pcRelativeWord_lea]
  | st sr off => rw [encode, append_regBits_eq_pcRelativeWord, decode_pcRelativeWord_st]
  | sti sr off => rw [encode, append_regBits_eq_pcRelativeWord, decode_pcRelativeWord_sti]
  | br n z p off => exact decode_branchHead_append n z p off
  | jmp baseR => rw [encode, regBits_eq_f3]; exact decode_append_jmp 0b000#3 baseR 0b000000#6
  | jsr off => exact decode_append_jsr off
  | jsrr baseR => rw [encode, regBits_eq_f3]; exact decode_append_jsrr 0b00#2 baseR 0b000000#6
  | trapGetc => exact decode_append_trap 0b0000#4 0x20#8
  | trapOut => exact decode_append_trap 0b0000#4 0x21#8
  | trapPuts => exact decode_append_trap 0b0000#4 0x22#8
  | trapIn => exact decode_append_trap 0b0000#4 0x23#8
  | trapPutsp => exact decode_append_trap 0b0000#4 0x24#8
  | trapHalt => exact decode_append_trap 0b0000#4 0x25#8
  | trapUnsupported v =>
    have hv : isRoutineVector v = false := Bool.not_eq_true' _ ▸ hi
    exact (decode_append_trap 0b0000#4 v).trans (decodeTrap_of_not_routine hv)
  | rti => exact decode_append_rti 0#12
  | res => exact decode_append_res 0#12

/-- Settles O5: the opcode map is checked on its sixteen patterns, every other field is a range of bits. -/
theorem decoderRecord : Obligations.DecoderRecord := by
  intro w
  have hrange (start len : Nat) := toNat_extractLsb' w start len
  have hop : opNumber (opOf w) = w.toNat / 4096 := by
    rw [opNumber_opOf, hrange]
    exact Nat.mod_eq_of_lt (by omega)
  exact ⟨hop, hrange 9 3, hrange 6 3, toNat_extractLsb'_zero w 3, getLsbD_iff_toNat w 5, getLsbD_iff_toNat w 11,
    signExtend_low_eq_sextRule w 5, signExtend_low_eq_sextRule w 6, signExtend_low_eq_sextRule w 9,
    signExtend_low_eq_sextRule w 11, toNat_extractLsb'_zero w 8⟩

/-- Settles O1: the decoder evaluated on the spec's words. -/
theorem exampleWordsDecode : Obligations.ExampleWordsDecode := by
  unfold Obligations.ExampleWordsDecode
  decide

/-- Settles O7: a TRAP word is decoded from its vector alone. -/
theorem trapVectors : Obligations.TrapVectors := by
  intro x v
  rw [decode_append_trap]
  refine ⟨?_, ?_, ?_, ?_, ?_, ?_, decodeTrap_of_unsupported⟩ <;> (rintro rfl; rfl)

/-- Settles O40: the word at PC decodes back to the instruction. -/
theorem stepRunsTheEncodedInstruction : Obligations.StepRunsTheEncodedInstruction := by
  intro s i hs hn hpc hi hcell
  obtain ⟨hplain, -, -⟩ := stepRunsTheDecodedInstruction s
  rw [hplain hs hn hpc, hcell, decodeOfEncode i hi]
end

section
/-! PROOFS. The bits that no field uses (R65). They are a function of the opcode and the two mode bits. A word is the
row's opcode, fields and ignored bits one after another, so that the encoder's word and the word decoded are compared
part by part; and the decoder's answer is the same on words whose fields are. -/

open Sys2Proof.Claims

namespace Sys2Proof.Machine

/-- The ignored bits of the row that the opcode and the mode bits I[5] and I[11] select (R65). -/
def rowIgnored (o : Op) (bit5 bit11 : Bool) : Word :=
  match o with
  | .ADD | .AND => if bit5 then 0 else 0x0018
  | .NOT => 0x003F
  | .JMP => 0x0E3F
  | .JSR => if bit11 then 0 else 0x063F
  | .TRAP => 0x0F00
  | .RTI | .RES => 0x0FFF
  | .BR | .LD | .ST | .LDR | .STR | .LDI | .STI | .LEA => 0

theorem ignoredBits_eq_rowIgnored (w : Word) :
    ignoredBits w = rowIgnored (opOf w) (w.getLsbD 5) (w.getLsbD 11) := by
  obtain ⟨hop, -⟩ := decoderRecord w
  have hdiv : w.toNat / 4096 = opNumber (opOf w) := hop.symm
  rw [ignoredBits, hdiv]
  cases opOf w <;> rfl

/-! ## Words that agree outside a mask -/

/-- `v` and `w` have the same bits but for those of `m`. -/
def AgreesOutside {n : Nat} (m v w : BitVec n) : Prop := (v ^^^ w) &&& ~~~ m = 0

section
variable {a b : Nat}

theorem agreesOutside_of_eq {v w : BitVec a} (m : BitVec a) (h : v = w) : AgreesOutside m v w := by
  rw [AgreesOutside, h, BitVec.xor_self, BitVec.zero_and]
  rfl

theorem agreesOutside_allOnes (v w : BitVec a) : AgreesOutside (BitVec.allOnes a) v w := by
  rw [AgreesOutside, BitVec.not_allOnes, BitVec.and_zero]
  rfl

/-- Two ranges of bits, one after the other. -/
theorem AgreesOutside.append {m u : BitVec a} {m' u' : BitVec b} {w : Word} {start start' : Nat}
    (hi : AgreesOutside m u (w.extractLsb' start' a)) (lo : AgreesOutside m' u' (w.extractLsb' start b))
    (h : start' = start + b := by rfl) : AgreesOutside (m ++ m') (u ++ u') (w.extractLsb' start (a + b)) := by
  rw [AgreesOutside] at hi lo
  rw [AgreesOutside, ← BitVec.extractLsb'_append_extractLsb'_eq_extractLsb' h, BitVec.xor_append,
    BitVec.not_append, BitVec.and_append, hi, lo]
  exact BitVec.zero_append_zero

/-- The whole word is a range of its bits. -/
theorem AgreesOutside.word {m u w : Word} (h : AgreesOutside m u (w.extractLsb' 0 16)) : AgreesOutside m u w := by
  rwa [BitVec.extractLsb'_eq_self] at h

/-- A range of bits that meets no bit of the mask is the same. -/
theorem AgreesOutside.extract {m v w : Word} (h : AgreesOutside m v w) (start len : Nat)
    (hm : m.extractLsb' start len = 0) : v.extractLsb' start len = w.extractLsb' start len := by
  ext k hk
  have hmk : m.getLsbD (start + k) = false := by simpa [hk] using congrArg (BitVec.getLsbD · k) hm
  have hbit := congrArg (BitVec.getLsbD · (start + k)) h
  by_cases hlt : start + k < 16
  · simpa [hlt, BitVec.getLsbD_eq_getElem hlt ▸ hmk] using hbit
  · simp [BitVec.getLsbD_of_ge _ _ (not_lt.mp hlt)]

/-- A bit outside the mask is the same. -/
theorem AgreesOutside.bit {m v w : Word} (h : AgreesOutside m v w) (k : Nat) (hm : m.extractLsb' k 1 = 0) :
    v.getLsbD k = w.getLsbD k := by
  rw [BitVec.getLsbD_eq_extractLsb', BitVec.getLsbD_eq_extractLsb', h.extract k 1 hm]

theorem AgreesOutside.eq {v w : Word} (h : AgreesOutside 0 v w) : v = w := by
  simpa using h.extract 0 16 BitVec.extractLsb'_zero

end

/-! ## The encoder's word and the word decoded -/

/-- A bit as a range of one. -/
theorem ofBool_getLsbD (w : Word) (k : Nat) : BitVec.ofBool (w.getLsbD k) = w.extractLsb' k 1 := by
  have hall : ∀ x : BitVec 1, BitVec.ofBool (x == 1#1) = x := by decide
  rw [BitVec.getLsbD_eq_extractLsb', hall]

/-- A bit whose value is known. -/
theorem extract_of_bit {w : Word} {k : Nat} {b : Bool} (h : w.getLsbD k = b) :
    BitVec.ofBool b = w.extractLsb' k 1 := by
  rw [← h, ofBool_getLsbD]

section
variable {w : Word} {op : BitVec 4} (hop : op = w.extractLsb' 12 4)
include hop

/-- A row of four fields. -/
theorem agrees_operate {mx x my y : BitVec 3} {mlow low : BitVec 6} (hx : AgreesOutside mx x (w.extractLsb' 9 3))
    (hy : AgreesOutside my y (w.extractLsb' 6 3)) (hlow : AgreesOutside mlow low (w.extractLsb' 0 6)) :
    AgreesOutside (0#4 ++ mx ++ my ++ mlow) (op ++ x ++ y ++ low) w :=
  ((((agreesOutside_of_eq 0#4 hop).append hx).append hy).append hlow).word

/-- The rows with two registers and six low bits, which the row reads or ignores. -/
theorem agrees_twoRegisters {mlow low : BitVec 6} (hlow : AgreesOutside mlow low (w.extractLsb' 0 6)) :
    AgreesOutside (0#4 ++ 0#3 ++ 0#3 ++ mlow) (operateWord op (fieldR11 w) (fieldR8 w) low) w :=
  agrees_operate hop (agreesOutside_of_eq 0#3 (f3_of_toFin (w.extractLsb' 9 3)))
    (agreesOutside_of_eq 0#3 (f3_of_toFin (w.extractLsb' 6 3))) hlow

/-- The rows with a register and offset9. -/
theorem agrees_pcRelative : AgreesOutside 0#16 (pcRelativeWord op (fieldR11 w) (fieldOff9 w)) w :=
  (((agreesOutside_of_eq 0#4 hop).append (agreesOutside_of_eq 0#3 (f3_of_toFin (w.extractLsb' 9 3)))).append
    (agreesOutside_of_eq 0#9 rfl)).word

/-- The reserved rows have no field. -/
theorem agrees_reserved : AgreesOutside (0#4 ++ BitVec.allOnes 12) (op ++ 0#12) w :=
  ((agreesOutside_of_eq 0#4 hop).append (agreesOutside_allOnes 0#12 (w.extractLsb' 0 12))).word

end

theorem encode_decodeTrap (v : Byte) : encode (decodeTrap v) = 0b11110000#8 ++ v := by
  unfold decodeTrap
  split_ifs with h0 h1 h2 h3 h4 h5
  · subst h0; rfl
  · subst h1; rfl
  · subst h2; rfl
  · subst h3; rfl
  · subst h4; rfl
  · subst h5; rfl
  · rfl

theorem agrees_trap {w : Word} (hop : 0b1111#4 = w.extractLsb' 12 4) :
    AgreesOutside (0#4 ++ BitVec.allOnes 4 ++ 0#8) (encode (decodeTrap (fieldVect8 w))) w := by
  rw [encode_decodeTrap]
  exact (((agreesOutside_of_eq 0#4 hop).append (agreesOutside_allOnes 0#4 (w.extractLsb' 8 4))).append
    (agreesOutside_of_eq 0#8 rfl)).word

theorem agrees_br {w : Word} (hop : 0b0000#4 = w.extractLsb' 12 4) :
    AgreesOutside 0#16 (encode (.br (w.getLsbD 11) (w.getLsbD 10) (w.getLsbD 9) (fieldOff9 w))) w :=
  (((((agreesOutside_of_eq 0#4 hop).append (agreesOutside_of_eq 0#1 (ofBool_getLsbD w 11))).append
    (agreesOutside_of_eq 0#1 (ofBool_getLsbD w 10))).append (agreesOutside_of_eq 0#1 (ofBool_getLsbD w 9))).append
    (agreesOutside_of_eq 0#9 rfl)).word

theorem agrees_jsr {w : Word} (hop : 0b0100#4 = w.extractLsb' 12 4) (h11 : w.getLsbD 11 = true) :
    AgreesOutside 0#16 (encode (.jsr (fieldOff11 w))) w :=
  (((agreesOutside_of_eq 0#4 hop).append (agreesOutside_of_eq 0#1 (extract_of_bit h11))).append
    (agreesOutside_of_eq 0#11 rfl)).word

theorem agrees_jsrr {w : Word} (hop : 0b0100#4 = w.extractLsb' 12 4) (h11 : w.getLsbD 11 = false) :
    AgreesOutside (0#4 ++ (0#1 ++ BitVec.allOnes 2) ++ 0#3 ++ BitVec.allOnes 6) (encode (.jsrr (fieldR8 w))) w := by
  have hhead : 0b0100000#7 = 0b0100#4 ++ (BitVec.ofBool false ++ 0b00#2) := by decide
  rw [encode, hhead]
  exact agrees_operate hop
    ((agreesOutside_of_eq 0#1 (extract_of_bit h11)).append (agreesOutside_allOnes 0#2 (w.extractLsb' 9 2)))
    (agreesOutside_of_eq 0#3 rfl) (agreesOutside_allOnes 0#6 (w.extractLsb' 0 6))

theorem agrees_jmp {w : Word} (hop : 0b1100#4 = w.extractLsb' 12 4) :
    AgreesOutside (0#4 ++ BitVec.allOnes 3 ++ 0#3 ++ BitVec.allOnes 6) (encode (.jmp (fieldR8 w))) w := by
  have hhead : 0b1100000#7 = 0b1100#4 ++ 0b000#3 := by decide
  rw [encode, hhead]
  exact agrees_operate hop (agreesOutside_allOnes 0#3 (w.extractLsb' 9 3)) (agreesOutside_of_eq 0#3 rfl)
    (agreesOutside_allOnes 0#6 (w.extractLsb' 0 6))

/-- I[5:0] in register mode, where I[4:3] is ignored (R60, R65). -/
theorem agrees_registerMode {w : Word} (h5 : w.getLsbD 5 = false) :
    AgreesOutside (0#1 ++ BitVec.allOnes 2 ++ 0#3) (registerMode 0b00#2 (fieldR2 w)) (w.extractLsb' 0 6) :=
  ((agreesOutside_of_eq 0#1 (extract_of_bit h5)).append (agreesOutside_allOnes 0#2 (w.extractLsb' 3 2))).append
    (agreesOutside_of_eq 0#3 (f3_of_toFin (w.extractLsb' 0 3)))

/-- I[5:0] in immediate mode (R60). -/
theorem agrees_immediateMode {w : Word} (h5 : w.getLsbD 5 = true) :
    AgreesOutside (0#1 ++ 0#5) (immediateMode (fieldImm5 w)) (w.extractLsb' 0 6) :=
  (agreesOutside_of_eq 0#1 (extract_of_bit h5)).append (agreesOutside_of_eq 0#5 rfl)

/-! ## Every row -/

/-- The encoder gives back every bit that the row does not ignore (R65). -/
theorem agrees_encode_decode (w : Word) : AgreesOutside (ignoredBits w) (encode (decode w)) w := by
  rw [ignoredBits_eq_rowIgnored]
  cases ho : opOf w <;> have hop := (extract_of_opOf ho).symm <;> simp only [decode, ho, rowIgnored]
  case ADD | AND =>
    cases h5 : w.getLsbD 5
    · rw [if_neg Bool.false_ne_true, if_neg Bool.false_ne_true, encode, append_regBits_eq_registerMode]
      exact agrees_twoRegisters hop (agrees_registerMode h5)
    · rw [if_pos rfl, if_pos rfl, encode, append_regBits_eq_immediateMode]
      exact agrees_twoRegisters hop (agrees_immediateMode h5)
  case JSR =>
    cases h11 : w.getLsbD 11
    · exact agrees_jsrr hop h11
    · exact agrees_jsr hop h11
  case NOT =>
    rw [encode, append_regBits_eq_operateWord]
    exact agrees_twoRegisters hop (agreesOutside_allOnes 0b111111#6 (w.extractLsb' 0 6))
  case LDR | STR =>
    rw [encode, append_regBits_eq_operateWord]
    exact agrees_twoRegisters hop (agreesOutside_of_eq 0#6 rfl)
  case LD | LDI | LEA | ST | STI =>
    rw [encode, append_regBits_eq_pcRelativeWord]
    exact agrees_pcRelative hop
  case BR => exact agrees_br hop
  case JMP => exact agrees_jmp hop
  case TRAP => exact agrees_trap hop
  case RTI | RES => exact agrees_reserved hop

/-- Every vector decodes to an instruction (R66). -/
theorem wellFormed_decodeTrap (v : Byte) : WellFormed (decodeTrap v) = true := by
  decide +revert

/-- Every word decodes to an instruction (R62). -/
theorem wellFormed_decode (w : Word) : WellFormed (decode w) = true := by
  unfold decode
  cases opOf w
  case TRAP => exact wellFormed_decodeTrap (fieldVect8 w)
  case ADD | AND => cases w.getLsbD 5 <;> rfl
  case JSR => cases w.getLsbD 11 <;> rfl
  all_goals rfl

/-! ## The decoder on words that agree -/

/-- No row ignores a bit of the opcode (R65). -/
theorem extract_rowIgnored_opcode (o : Op) (x y : Bool) : (rowIgnored o x y).extractLsb' 12 4 = 0 := by
  cases o <;> cases x <;> cases y <;> decide

/-- Words that agree outside the first one's ignored bits decode alike (R65). -/
theorem decode_eq_of_agrees {v w : Word} (h : AgreesOutside (ignoredBits w) w v) : decode w = decode v := by
  rw [ignoredBits_eq_rowIgnored] at h
  have hv : opOf w = opOf v := opOf_congr (h.extract 12 4 (extract_rowIgnored_opcode _ _ _))
  cases ho : opOf w <;> rw [ho] at h hv <;> simp only [rowIgnored] at h
  case BR | LD | ST | LDR | STR | LDI | STI | LEA => rw [h.eq]
  case ADD | AND =>
    cases h5 : w.getLsbD 5 <;> rw [h5] at h
    · have h5' : w.getLsbD 5 = v.getLsbD 5 := h.bit 5 (by decide)
      have hr11 : fieldR11 w = fieldR11 v := congrArg BitVec.toFin (h.extract 9 3 (by decide))
      have hr8 : fieldR8 w = fieldR8 v := congrArg BitVec.toFin (h.extract 6 3 (by decide))
      have hr2 : fieldR2 w = fieldR2 v := congrArg BitVec.toFin (h.extract 0 3 (by decide))
      simp only [decode, ho, ← hv, h5, ← h5', hr11, hr8, hr2, Bool.false_eq_true, if_false]
    · rw [AgreesOutside.eq h]
  case JSR =>
    cases h11 : w.getLsbD 11 <;> rw [h11] at h
    · have h11' : w.getLsbD 11 = v.getLsbD 11 := h.bit 11 (by decide)
      have hr8 : fieldR8 w = fieldR8 v := congrArg BitVec.toFin (h.extract 6 3 (by decide))
      simp only [decode, ho, ← hv, h11, ← h11', hr8, Bool.false_eq_true, if_false]
    · rw [AgreesOutside.eq h]
  case NOT =>
    have hr11 : fieldR11 w = fieldR11 v := congrArg BitVec.toFin (h.extract 9 3 (by decide))
    have hr8 : fieldR8 w = fieldR8 v := congrArg BitVec.toFin (h.extract 6 3 (by decide))
    simp only [decode, ho, ← hv, hr11, hr8]
  case JMP =>
    have hr8 : fieldR8 w = fieldR8 v := congrArg BitVec.toFin (h.extract 6 3 (by decide))
    simp only [decode, ho, ← hv, hr8]
  case TRAP =>
    have hvect : fieldVect8 w = fieldVect8 v := h.extract 0 8 (by decide)
    simp only [decode, ho, ← hv, hvect]
  case RTI | RES => simp only [decode, ho, ← hv]

end Sys2Proof.Machine

open Sys2Proof Sys2Proof.Machine

/-- Settles O3: each row's word is compared part by part with its encoding. -/
theorem encodeOfDecodeKeepsFields : Obligations.EncodeOfDecodeKeepsFields :=
  fun w => ⟨wellFormed_decode w, agrees_encode_decode w⟩

/-- Settles O4: the decoder looks at the fields of the row alone. -/
theorem ignoredBitsDoNotMatter : Obligations.IgnoredBitsDoNotMatter :=
  fun _ _ h => (decode_eq_of_agrees h).symm
end

section
/-! PROOFS. The instructions that read memory (43_load_store.md) and JSRR. A poll is said once in the statements'
terms; a load is then a plain read or a poll, then a flag-defining write; LDI and STI read their pointer first. A
state that waits differs in the field `held` alone. -/

open Sys2Proof.Claims

namespace Sys2Proof.Machine

/-! ## A poll -/

/-- The whole effect of a poll that took `e` and left `rest` (R38). -/
def Polls (e : InputEvent) (rest : List InputEvent) (s t : State) : Prop :=
  (∀ b, t.cell b = cellAfterPoll e s b) ∧ t.input = rest ∧ SameRegs s t ∧ t.cond = s.cond ∧ t.pc = s.pc ∧
    SameRun s t ∧ t.held = s.held

/-- A code in a word, as a number (R10). -/
theorem zext8_eq_ofNat (b : Byte) : zext8 b = BitVec.ofNat 16 b.toNat := (BitVec.ofNat_toNat 16 b).symm

/-- The two keyboard cells are different ones, so the order of a poll's writes does not matter (R38). -/
theorem State.pollCells_cell_eq_cellAfterPoll (s : State) (e : InputEvent) (b : Word) :
    (s.pollCells e).cell b = cellAfterPoll e s b := by
  rw [State.pollCells_cell]
  cases e with
  | eof => rfl
  | char c =>
    have hne : Config.kbdrAddr ≠ Config.kbsrAddr := by decide
    change _ = if b = Config.kbsrAddr then 0x8000#16 else if b = Config.kbdrAddr then _ else s.cell b
    rw [← zext8_eq_ofNat]
    by_cases hb : b = Config.kbdrAddr
    · simp only [hb, hne, if_true, if_false]
    · simp only [hb, if_false]

theorem State.pollCells_polls (s : State) (e : InputEvent) (rest : List InputEvent) :
    Polls e rest s ((s.setInput rest).pollCells e) := by
  refine ⟨fun b => ?_, by simp, fun r => by simp, by simp, by simp, ⟨by simp, by simp, by simp⟩, by simp⟩
  rw [State.pollCells_cell_eq_cellAfterPoll]
  cases e <;> rfl

/-- What a poll makes KBSR read as (R38). -/
theorem cellAfterPoll_kbsr (e : InputEvent) (s : State) : cellAfterPoll e s Config.kbsrAddr = polledKbsr e := by
  cases e <;> rfl

/-- What a poll makes KBSR read as is no address of a keyboard cell (R23, R24, R38). -/
theorem polledKbsr_ne (e : InputEvent) : polledKbsr e ≠ Config.kbsrAddr ∧ polledKbsr e ≠ Config.kbdrAddr := by
  cases e <;> rw [polledKbsr] <;> decide

/-- A poll leaves every other cell as it was (R38). -/
theorem cellAfterPoll_of_ne (e : InputEvent) (s : State) {a : Word} (h : a ≠ Config.kbsrAddr)
    (h' : a ≠ Config.kbdrAddr) : cellAfterPoll e s a = s.cell a := by
  cases e with
  | char c => exact (if_neg h).trans (if_neg h')
  | eof => exact if_neg h

/-- A read of KBSR with an event gives what the poll wrote (R37, R38). -/
theorem State.memRead_polls {s : State} {e : InputEvent} {rest : List InputEvent} (h : s.input = e :: rest) :
    ∃ t, s.memRead Config.kbsrAddr = some (polledKbsr e, t) ∧ Polls e rest s t := by
  have hp := s.pollCells_polls e rest
  obtain ⟨hcells, -⟩ := id hp
  refine ⟨_, ?_, hp⟩
  rw [State.memRead_kbsr_cons h, hcells, cellAfterPoll_kbsr]

/-! ## A load -/

/-- A load that polls: DR takes what the poll wrote, or what is read after it (R96, R97, R98). -/
theorem Polls.defines {e : InputEvent} {rest : List InputEvent} {s t : State} (h : Polls e rest s t) (dr : Reg)
    (v : Word) : Defines dr v s ((t.setRegCc dr v).setHeld none) ∧
      (∀ a, ((t.setRegCc dr v).setHeld none).cell a = cellAfterPoll e s a) ∧
      ((t.setRegCc dr v).setHeld none).input = rest ∧ ((t.setRegCc dr v).setHeld none).held = none := by
  obtain ⟨hcells, hinput, hregs, -, hpc, ⟨hstatus, hout, hflushed⟩, -⟩ := h
  obtain ⟨⟨hdr, hcond, hother, -⟩, -⟩ := t.setRegCc_computes dr v
  exact ⟨⟨hdr, hcond, fun r hr => (hother r hr).trans (hregs r), hpc, hstatus, hout, hflushed⟩, hcells, hinput, rfl⟩

/-- A load that polls nothing (R96, R97, R98). -/
theorem State.setRegCc_loads (s : State) (dr : Reg) (v : Word) : Loads dr v s ((s.setRegCc dr v).setHeld none) := by
  obtain ⟨hdefines, hcells, hinput, -⟩ := s.setRegCc_computes dr v
  exact ⟨hdefines, hcells, hinput, rfl⟩

section
variable (s : State) (i : Instr) (dr : Reg) {ea : Word}

/-- A load of a plain cell (R41, R96, R98). -/
theorem State.load_plain (h : ea ≠ Config.kbsrAddr) : Loads dr (s.cell ea) s (s.orHold i (s.loadFrom dr ea)) := by
  rw [State.loadFrom, State.memRead_plain s h]
  exact s.setRegCc_loads dr (s.cell ea)

/-- A load at KBSR with an event (R37, R96, R98). -/
theorem State.load_poll {e : InputEvent} {rest : List InputEvent} (h : ea = Config.kbsrAddr)
    (hi : s.input = e :: rest) : ∃ t, s.orHold i (s.loadFrom dr ea) = t ∧ Defines dr (polledKbsr e) s t ∧
      (∀ a, t.cell a = cellAfterPoll e s a) ∧ t.input = rest ∧ t.held = none := by
  obtain ⟨u, hr, hp⟩ := State.memRead_polls hi
  rw [h, State.loadFrom, hr]
  exact ⟨_, rfl, hp.defines dr (polledKbsr e)⟩

/-- A load at KBSR with no event (R42, R73). -/
theorem State.load_hold (h : ea = Config.kbsrAddr) (hi : s.input = []) :
    s.orHold i (s.loadFrom dr ea) = waiting i s := by
  rw [h, State.loadFrom, State.memRead_kbsr_nil hi]
  rfl

end

end Sys2Proof.Machine

open Sys2Proof Sys2Proof.Machine

/-- Settles O36: the three cases of a read. -/
theorem readsAndPolls : Obligations.ReadsAndPolls := by
  intro s a
  refine ⟨s.memRead_plain, ?hold, ?poll⟩
  case hold =>
    rintro rfl hi
    exact State.memRead_kbsr_nil hi
  case poll =>
    rintro rfl e rest hi
    exact State.memRead_polls hi

/-- Settles O16: the word of the row, and a call of PC' plus the base as it reads after the link. -/
theorem callRegister : Obligations.CallRegister := by
  refine ⟨decode_append_jsrr, ?executes⟩
  intro baseR s
  have htarget : aluAdd s.pc (s.link.getReg baseR) = if baseR = 7 then s.pc + s.pc else s.pc + s.getReg baseR := by
    rw [State.link_getReg, aluAdd, apply_ite (s.pc + ·)]
  rw [← htarget]
  exact ⟨_, rfl, s.link_setPc_calls _⟩

/-- Settles O17: the word of the row, and a load from the PC-relative address. -/
theorem loadPcRelative : Obligations.LoadPcRelative := by
  refine ⟨decode_pcRelativeWord_ld, ?executes⟩
  intro dr off s ea hea
  rw [← State.pcRel9_eq_ofInt] at hea
  subst hea
  refine ⟨?plain, ?poll, ?hold⟩
  case plain => exact fun h => ⟨_, rfl, s.load_plain (.ld dr off) dr h⟩
  case poll =>
    intro h e rest hi
    obtain ⟨t, ht, heffect⟩ := s.load_poll (.ld dr off) dr h hi
    exact ⟨t, congrArg _ ht, heffect⟩
  case hold => exact fun h hi => congrArg _ (s.load_hold (.ld dr off) dr h hi)

/-- Settles O19: the word of the row, and a load from the base plus the offset. -/
theorem loadBaseOffset : Obligations.LoadBaseOffset := by
  refine ⟨decode_operateWord_ldr, ?executes⟩
  intro dr baseR off s ea hea
  rw [← State.baseRel6_eq_ofInt] at hea
  subst hea
  refine ⟨?plain, ?poll, ?hold⟩
  case plain => exact fun h => ⟨_, rfl, s.load_plain (.ldr dr baseR off) dr h⟩
  case poll =>
    intro h e rest hi
    obtain ⟨t, ht, heffect⟩ := s.load_poll (.ldr dr baseR off) dr h hi
    exact ⟨t, congrArg _ ht, heffect⟩
  case hold => exact fun h hi => congrArg _ (s.load_hold (.ldr dr baseR off) dr h hi)

/-- Settles O18: the word of the row, and two reads, of which at most one polls: what a poll makes the pointer is no
keyboard cell. -/
theorem loadIndirect : Obligations.LoadIndirect := by
  refine ⟨decode_pcRelativeWord_ldi, ?executes⟩
  intro dr off s pa hpa
  rw [← State.pcRel9_eq_ofInt] at hpa
  have hexec : exec (.ldi dr off) s =
      .next (s.orHold (.ldi dr off) ((s.memRead pa).bind fun (p, t) => t.loadFrom dr p)) := hpa ▸ rfl
  have hplain (hne : pa ≠ Config.kbsrAddr) :
      exec (.ldi dr off) s = .next (s.orHold (.ldi dr off) (s.loadFrom dr (s.cell pa))) := by
    rw [hexec, State.memRead_plain s hne, Option.bind_some]
  refine ⟨?plain, ?pollData, ?pollPointer, ?hold⟩
  case plain => exact fun hne hdata => ⟨_, hplain hne, s.load_plain (.ldi dr off) dr hdata⟩
  case pollData =>
    intro hne hdata e rest hi
    obtain ⟨t, ht, heffect⟩ := s.load_poll (.ldi dr off) dr hdata hi
    exact ⟨t, (hplain hne).trans (congrArg _ ht), heffect⟩
  case pollPointer =>
    intro (heq : pa = Config.kbsrAddr) e rest hi
    obtain ⟨t, hr, hp⟩ := State.memRead_polls hi
    obtain ⟨hcells, -⟩ := id hp
    obtain ⟨hkbsr, hkbdr⟩ := polledKbsr_ne e
    have hdata : t.memRead (polledKbsr e) = some (s.cell (polledKbsr e), t) := by
      rw [State.memRead_plain t hkbsr, hcells, cellAfterPoll_of_ne e s hkbsr hkbdr]
    have hload : t.loadFrom dr (polledKbsr e) = some (t.setRegCc dr (s.cell (polledKbsr e))) := by
      rw [State.loadFrom, hdata, Option.map_some]
    simp only [hexec, heq, hr, Option.bind_some, hload]
    exact ⟨_, rfl, hp.defines dr (s.cell (polledKbsr e))⟩
  case hold =>
    intro hpoll hi
    by_cases heq : pa = Config.kbsrAddr
    · rw [hexec, heq, State.memRead_kbsr_nil hi]
      rfl
    · exact (hplain heq).trans (congrArg _ (s.load_hold (.ldi dr off) dr (hpoll.resolve_left heq) hi))

/-- Settles O22: the word of the row, the pointer's read, and a write at the pointer. -/
theorem storeIndirect : Obligations.StoreIndirect := by
  refine ⟨decode_pcRelativeWord_sti, ?executes⟩
  intro sr off s pa hpa
  rw [← State.pcRel9_eq_ofInt] at hpa
  have hexec : exec (.sti sr off) s = .next
      (s.orHold (.sti sr off) ((s.memRead pa).map fun (p, t) => t.memWrite p (t.getReg sr))) := hpa ▸ rfl
  rw [hexec]
  refine ⟨?plain, ?poll, ?hold⟩
  case plain =>
    intro hne
    rw [State.memRead_plain s hne]
    exact ⟨_, rfl, s.memWrite_stores (s.cell pa) (s.getReg sr), rfl⟩
  case poll =>
    intro (heq : pa = Config.kbsrAddr) e rest hi
    obtain ⟨t, hr, hcells, hinput, hregs, hcond, hpc, hrun, -⟩ := State.memRead_polls hi
    have hcell : (t.memWrite (polledKbsr e) (t.getReg sr)).cell (polledKbsr e) = s.getReg sr := by
      rw [State.memWrite_cell_same, hregs]
    have hother (a : Word) (ha : a ≠ polledKbsr e) :
        (t.memWrite (polledKbsr e) (t.getReg sr)).cell a = cellAfterPoll e s a := by
      rw [State.memWrite_cell_of_ne t _ ha, hcells]
    rw [heq, hr]
    exact ⟨_, rfl, hcell, hother, hinput, hregs, hcond, hpc, hrun, rfl⟩
  case hold =>
    intro (heq : pa = Config.kbsrAddr) hi
    rw [heq, State.memRead_kbsr_nil hi]
    rfl
end

section
/-! PROOFS. GETC and IN (44_trap.md): the optional link, the prompt of IN, and then the end of the trap for the event
taken, or the wait. -/

open Sys2Proof.Claims

namespace Sys2Proof.Machine

section
variable (s : State)

theorem State.prompted_keeps : TrapKeeps s s.prompted := s.trapLink_emit_keeps s.promptDue

/-- A trap that waits has made its link and emitted its codes (R73). -/
theorem State.emit_setHeld_waits (i : Instr) (codes : List Byte) :
    TrapWaits i codes s ((s.trapLink.emit codes).setHeld (some i)) :=
  ⟨trapKeeps_of_same (s.trapLink_emit_keeps codes) (fun _ => rfl) rfl rfl, fun _ => rfl, rfl, rfl, rfl, rfl, rfl⟩

theorem State.emit_nil : s.emit [] = s := by
  rw [State.emit, List.append_nil]

/-- A trap that waits with nothing emitted (R73). -/
theorem State.trapLink_setHeld_waits (i : Instr) : TrapWaits i [] s (s.trapLink.setHeld (some i)) := by
  simpa only [State.emit_nil] using s.emit_setHeld_waits i []

/-- The end of GETC and IN, on a state whose registers, COND and PC are those after the link (R107, R110). -/
theorem receive_receives {s u : State} (h : TrapKeeps s u) (e : InputEvent) :
    TrapReceives (received e) s ((u.receive e).setHeld none) := by
  obtain ⟨hregs, -, hpc⟩ := h
  have hr0 : (u.receive e).getReg 0 = received e := by rw [State.receive_getReg, if_pos rfl]
  have hcond : (u.receive e).cond = condOf (received e) := by rw [State.receive_cond, flags_eq_condOf]
  have hother (r : Reg) (hr : r ≠ 0) : (u.receive e).getReg r = linkedReg s r := by
    rw [State.receive_getReg, if_neg hr, hregs]
  exact ⟨hr0, hcond, hother, (u.receive_pc e).trans hpc⟩

/-- A character leaves the cells (R107, D17). -/
theorem State.receive_char_cell (b : Byte) (a : Word) : (s.receive (.char b)).cell a = s.cell a := rfl

/-- End of input clears KBSR (R107, D16). -/
theorem State.receive_eof_kbsr : (s.receive .eof).cell 0xFE00#16 = 0#16 := s.memWrite_cell_same Config.kbsrAddr 0#16

/-- End of input leaves every other cell (R107, D16). -/
theorem State.receive_eof_cell_of_ne {a : Word} (h : a ≠ 0xFE00#16) : (s.receive .eof).cell a = s.cell a :=
  s.memWrite_cell_of_ne 0#16 h

/-- The end of GETC with an event (R107). -/
theorem exec_getc_of_event {s : State} {e : InputEvent} {rest : List InputEvent} (h : s.input = e :: rest) :
    exec .trapGetc s = .next (((s.trapLink.setInput rest).receive e).setHeld none) := by
  rw [exec, execGetc, State.inputRead_cons (s := s.trapLink) h]; rfl

theorem exec_getc_of_none {s : State} (h : s.input = []) :
    exec .trapGetc s = .next (s.trapLink.setHeld (some .trapGetc)) := by
  rw [exec, execGetc, State.inputRead_nil (s := s.trapLink) h]; rfl

/-- The end of IN with an event (R110). -/
theorem exec_in_of_event {s : State} {e : InputEvent} {rest : List InputEvent} (h : s.input = e :: rest) :
    exec .trapIn s = .next ((((s.prompted.setInput rest).emit (echo e)).receive e).setHeld none) := by
  rw [exec, execIn, State.inputRead_cons (s := s.prompted) h]; rfl

theorem exec_in_of_none {s : State} (h : s.input = []) :
    exec .trapIn s = .next (s.prompted.setHeld (some .trapIn)) := by
  rw [exec, execIn, State.inputRead_nil (s := s.prompted) h]; rfl

end

end Sys2Proof.Machine

open Sys2Proof Sys2Proof.Machine

/-- Settles O24: the three inputs of GETC, each with its end. -/
theorem getcReadsOneCharacter : Obligations.GetcReadsOneCharacter := by
  intro s
  have hlink (rest : List InputEvent) : TrapKeeps s (s.trapLink.setInput rest) := s.trapLink_keeps
  refine ⟨?char, ?eof, ?hold⟩
  case char =>
    intro b rest hi
    refine ⟨_, exec_getc_of_event hi, ?_, fun _ => rfl, ⟨rfl, rfl, rfl⟩, rfl, rfl⟩
    rw [← zext8_eq_ofNat]
    exact receive_receives (hlink rest) (.char b)
  case eof =>
    intro rest hi
    exact ⟨_, exec_getc_of_event hi, receive_receives (hlink rest) .eof, State.receive_eof_kbsr _,
      fun _ ha => State.receive_eof_cell_of_ne _ ha, ⟨rfl, rfl, rfl⟩, rfl, rfl⟩
  case hold => exact fun hi => ⟨_, exec_getc_of_none hi, s.trapLink_setHeld_waits .trapGetc⟩

/-- Settles O28: as for GETC, with the prompt before the read and the echo of a character after it. -/
theorem inReadsAndEchoes : Obligations.InReadsAndEchoes := by
  intro s
  have hprompt (rest : List InputEvent) (codes : List Byte) : TrapKeeps s ((s.prompted.setInput rest).emit codes) :=
    s.prompted_keeps
  refine ⟨?char, ?eof, ?hold⟩
  case char =>
    intro b rest hi
    refine ⟨_, exec_in_of_event hi, ?_, fun _ => rfl, rfl, rfl, rfl, rfl, rfl⟩
    rw [← zext8_eq_ofNat]
    exact receive_receives (hprompt rest [b]) (.char b)
  case eof =>
    intro rest hi
    refine ⟨_, exec_in_of_event hi, receive_receives (hprompt rest []) .eof, State.receive_eof_kbsr _,
      fun _ ha => State.receive_eof_cell_of_ne _ ha, ?_, rfl, rfl, rfl, rfl⟩
    exact List.append_nil _
  case hold => exact fun hi => ⟨_, exec_in_of_none hi, s.emit_setHeld_waits .trapIn s.promptDue⟩
end

section
/-! PROOFS. PUTS and PUTSP (44_trap.md). The bounded walk of the model is the loop of the rule, as long as its fuel is
more than the reads to the next KBSR and a lap for each waiting event: each read takes one from the distance, and the
read of KBSR takes an event. The loop has one result, so every such fuel gives the same. -/

open Sys2Proof.Claims

namespace Sys2Proof.Machine

/-! ## The loop and the bounded walk -/

/-- The loop has one result (R109, R111). -/
theorem walk_unique {codes : Word → List Byte} {a : Word} {s : State} {r r' : Option State}
    (h : Walk codes a s r) (h' : Walk codes a s r') : r = r' := by
  induction h generalizing r' with
  | holds hr =>
    cases h' with
    | holds => rfl
    | ends hr' => cases hr.symm.trans hr'
    | emits hr' => cases hr.symm.trans hr'
  | ends hr =>
    cases h' with
    | holds hr' => cases hr.symm.trans hr'
    | ends hr' => cases hr.symm.trans hr'; rfl
    | emits hr' hc => cases hr.symm.trans hr'; exact absurd rfl hc
  | emits hr hc _ ih =>
    cases h' with
    | holds hr' => cases hr.symm.trans hr'
    | ends hr' => cases hr.symm.trans hr'; exact absurd rfl hc
    | emits hr' _ hw => cases hr.symm.trans hr'; exact ih hw

/-- The reads before KBSR, of a walk that goes on from `a` (R47). -/
def readsToKbsr (a : Word) : Nat := (Config.kbsrAddr - a).toNat

/-- The reads that a walk may make: to the next KBSR, and a lap for each waiting event. -/
def readsLeft (a : Word) (s : State) : Nat := readsToKbsr a + 65536 * s.input.length

theorem readsToKbsr_kbsr : readsToKbsr Config.kbsrAddr = 0 := by decide

theorem readsToKbsr_succ {a : Word} (h : a ≠ Config.kbsrAddr) : readsToKbsr (a + 1#16) + 1 = readsToKbsr a := by
  have hpos : 1#16 ≤ Config.kbsrAddr - a := by
    rw [BitVec.le_def]
    exact Nat.pos_of_ne_zero fun h0 => h (sub_eq_zero.mp (BitVec.eq_of_toNat_eq h0)).symm
  rw [readsToKbsr, readsToKbsr, ← sub_sub, BitVec.toNat_sub_of_le hpos]
  exact Nat.sub_add_cancel hpos

/-- Each read of a walk that goes on leaves one less to make. -/
theorem readsLeft_lt {s t : State} {a c : Word} (h : s.memRead a = some (c, t)) :
    readsLeft (a + 1#16) t < readsLeft a s := by
  rcases State.memRead_eq_some h with ⟨hne, -, rfl⟩ | ⟨rfl, e, rest, hi, rfl, -⟩
  · have := readsToKbsr_succ hne
    simp only [readsLeft]
    omega
  · have hlap : readsToKbsr (Config.kbsrAddr + 1#16) = 65535 := by decide
    simp only [readsLeft, hlap, readsToKbsr_kbsr, hi, State.pollCells_input, State.setInput_input, List.length_cons]
    omega

/-- With fuel for the reads left the walk is the loop. -/
theorem walk_stringWalk (codes : Word → List Byte) {n : Nat} {a : Word} {s : State} (h : readsLeft a s < n) :
    Walk codes a s (State.stringWalk codes n a s) := by
  induction n generalizing a s with
  | zero => exact absurd h (Nat.not_lt_zero _)
  | succ n ih =>
    rw [State.stringWalk_succ]
    cases hr : s.memRead a with
    | none => exact .holds hr
    | some p =>
      obtain ⟨c, t⟩ := p
      dsimp only
      by_cases hc : c = 0x0000#16
      · rw [if_pos hc]
        exact .ends (hc ▸ hr)
      · have hleft : readsLeft (a + 1#16) (t.emit (codes c)) < n :=
          (readsLeft_lt hr : readsLeft (a + 1#16) t < readsLeft a s).trans_le (Nat.le_of_lt_succ h)
        rw [if_neg hc]
        exact .emits hr hc (ih hleft)

/-- The model's bound is fuel for the reads left (log entry 13). -/
theorem readsLeft_lt_walkFuel (a : Word) (s : State) : readsLeft a s < s.walkFuel := by
  have : readsToKbsr a < 65536 := (Config.kbsrAddr - a).isLt
  simp only [readsLeft, State.walkFuel]
  omega

/-- The model's walk after the link is the loop from R0 (R109, R111). -/
theorem State.walk_putString (s : State) (codes : Word → List Byte) :
    Walk codes (s.getReg 0) s.trapLink (s.trapLink.putString codes) := by
  rw [State.putString, State.trapLink_getReg_zero]
  exact walk_stringWalk codes (readsLeft_lt_walkFuel (s.getReg 0) s.trapLink)

/-! ## PUTS and PUTSP -/

theorem highByte_eq_high8 (w : Word) : highByte w = high8 w := by
  have hnum : w.toNat >>> 8 = w.toNat / 256 := Nat.shiftRight_eq_div_pow w.toNat 8
  rw [high8, ← hnum]
  rfl

theorem putsCodes_eq : putsCodes = fun c => [low8 c] := rfl

theorem putspCodes_eq : putspCodes = pairCodes := by
  funext c
  simp only [putspCodes, pairCodes, highByte_eq_high8, lowByte_eq_low8]

/-- What a walk that ends has left as it was (R106, R109, R111). -/
theorem State.putString_keeps {s t : State} {codes : Word → List Byte} (h : s.trapLink.putString codes = some t) :
    TrapKeeps s t ∧ t.status = s.status ∧ t.flushed = s.flushed ∧
      ∀ a : Word, a ≠ 0xFE00#16 → a ≠ 0xFE02#16 → t.cell a = s.cell a := by
  obtain ⟨hp, -⟩ := State.stringWalk_frame h
  refine ⟨trapKeeps_of_same s.trapLink_keeps hp.getReg hp.cond hp.pc, hp.status, hp.flushed, fun a h1 h2 => ?_⟩
  by_contra hne
  obtain ⟨hk, -⟩ := hp.cells a hne
  exact hk.elim h1 h2

/-- What the rule of PUTS and of PUTSP says of an instruction `i` that walks with `codes` (R73, R109, R111). -/
def IsTheLoop (i : Instr) (codes : Word → List Byte) : Prop :=
  (∀ s : State, ∃ r, Walk codes (s.getReg 0) s.trapLink r) ∧
  (∀ (s t : State), Walk codes (s.getReg 0) s.trapLink (some t) →
    ∃ u, exec i s = .next u ∧ u = { t with held := none } ∧ TrapKeeps s u ∧ u.status = s.status ∧
      u.flushed = s.flushed ∧ ∀ a : Word, a ≠ 0xFE00#16 → a ≠ 0xFE02#16 → u.cell a = s.cell a) ∧
  (∀ s : State, Walk codes (s.getReg 0) s.trapLink none → ∃ t, exec i s = .next t ∧ TrapWaits i [] s t)

theorem isTheLoop_of_exec {i : Instr} {codes : Word → List Byte}
    (hexec : ∀ s, exec i s = .next (s.trapLink.orHold i (s.trapLink.putString codes))) : IsTheLoop i codes := by
  refine ⟨?decided, ?ends, ?holds⟩
  case decided => exact fun s => ⟨_, s.walk_putString codes⟩
  case ends =>
    intro s t hw
    have ht : s.trapLink.putString codes = some t := walk_unique (s.walk_putString codes) hw
    have hkeeps := State.putString_keeps ht
    rw [hexec, ht]
    exact ⟨t.setHeld none, rfl, rfl, hkeeps⟩
  case holds =>
    intro s hw
    rw [hexec, walk_unique (s.walk_putString codes) hw]
    exact ⟨_, rfl, s.trapLink_setHeld_waits i⟩

/-! ## A string that does not cross KBSR -/

/-- A string at `a`: non-zero cells, then a zero cell, none of them at KBSR. -/
def StringAt (a : Word) (s : State) (cs : List Word) : Prop :=
  (∀ c ∈ cs, c ≠ 0#16) ∧ (∀ k : Nat, ∀ h : k < cs.length, s.cell (a + BitVec.ofNat 16 k) = cs[k]) ∧
  s.cell (a + BitVec.ofNat 16 cs.length) = 0#16 ∧ ∀ k : Nat, k ≤ cs.length → a + BitVec.ofNat 16 k ≠ 0xFE00#16

theorem add_ofNat_succ (a : Word) (k : Nat) : a + BitVec.ofNat 16 (k + 1) = a + 1#16 + BitVec.ofNat 16 k := by
  rw [BitVec.ofNat_add, BitVec.add_comm (BitVec.ofNat 16 k), ← BitVec.add_assoc]

theorem stringAt_nil {a : Word} {s : State} (h : StringAt a s []) : a ≠ Config.kbsrAddr ∧ s.cell a = 0#16 := by
  obtain ⟨-, -, hzero, hne⟩ := h
  rw [List.length_nil, BitVec.add_zero] at hzero
  exact ⟨BitVec.add_zero a ▸ hne 0 (Nat.zero_le _), hzero⟩

theorem stringAt_cons {a c : Word} {s : State} {cs : List Word} (h : StringAt a s (c :: cs)) :
    a ≠ Config.kbsrAddr ∧ s.cell a = c ∧ c ≠ 0#16 ∧ StringAt (a + 1#16) s cs := by
  obtain ⟨hnz, hcells, hzero, hne⟩ := h
  have hhead : s.cell (a + BitVec.ofNat 16 0) = c := hcells 0 (Nat.succ_pos _)
  rw [BitVec.add_zero] at hhead
  refine ⟨BitVec.add_zero a ▸ hne 0 (Nat.zero_le _), hhead, hnz c List.mem_cons_self,
    fun d hd => hnz d (List.mem_cons_of_mem c hd), fun k hk => ?_, ?_, fun k hk => ?_⟩
  · rw [← add_ofNat_succ]
    exact hcells (k + 1) (Nat.succ_lt_succ hk)
  · rw [← add_ofNat_succ]
    exact hzero
  · rw [← add_ofNat_succ]
    exact hne (k + 1) (Nat.succ_le_succ hk)

/-- The loop emits the codes of the string's cells and does nothing else (R109, R111). -/
theorem walk_of_stringAt (codes : Word → List Byte) {a : Word} {s : State} {cs : List Word} (h : StringAt a s cs) :
    Walk codes a s (some (s.emit (cs.flatMap codes))) := by
  induction cs generalizing a s with
  | nil =>
    obtain ⟨hne, hzero⟩ := stringAt_nil h
    rw [List.flatMap_nil, State.emit_nil]
    exact .ends (hzero ▸ s.memRead_plain hne)
  | cons c cs ih =>
    obtain ⟨hne, rfl, hnz, htail⟩ := stringAt_cons h
    have hrest : Walk codes (a + 1#16) (s.emit (codes (s.cell a))) _ := ih htail
    have hout : (s.emit (codes (s.cell a))).emit (cs.flatMap codes) = s.emit ((s.cell a :: cs).flatMap codes) := by
      simp only [State.emit, List.flatMap_cons, List.append_assoc]
    exact .emits (s.memRead_plain hne) hnz (hout ▸ hrest)

/-- An instruction that is the loop emits the codes of a string at R0 (R109, R111). -/
theorem IsTheLoop.roundTrip {i : Instr} {codes : Word → List Byte} (h : IsTheLoop i codes) {s : State}
    {cs : List Word} (hs : StringAtR0 s cs) : ∃ t, exec i s = .next t ∧ t.out = s.out ++ cs.flatMap codes ∧
      TrapKeeps s t ∧ SameCells s t ∧ t.status = s.status ∧ t.flushed = s.flushed ∧ t.input = s.input ∧
      t.held = none := by
  obtain ⟨-, hends, -⟩ := h
  have hstring : StringAt (s.getReg 0) s.trapLink cs := hs
  obtain ⟨u, hexec, rfl, hkeeps, hstatus, hflushed, -⟩ := hends s _ (walk_of_stringAt codes hstring)
  exact ⟨_, hexec, rfl, hkeeps, fun _ => rfl, hstatus, hflushed, rfl, rfl⟩

/-- PUTS is the loop with one code a cell (R109). -/
theorem puts_isTheLoop : IsTheLoop .trapPuts fun c => [low8 c] :=
  isTheLoop_of_exec fun _ => rfl

/-- PUTSP is the loop with one or two codes a cell (R111). -/
theorem putsp_isTheLoop : IsTheLoop .trapPutsp pairCodes :=
  putspCodes_eq ▸ isTheLoop_of_exec fun _ => rfl

end Sys2Proof.Machine

open Sys2Proof Sys2Proof.Machine

/-- Settles O31: both walks have fuel for the reads left, and so both are the loop, which has one result. -/
theorem walkBoundSuffices : Obligations.WalkBoundSuffices := by
  intro codes n a s hn
  have hfuel := readsLeft_lt_walkFuel a s
  exact walk_unique (walk_stringWalk codes (hfuel.trans_le hn)) (walk_stringWalk codes hfuel)

/-- Settles O26: the word of the vector 0x22, and the loop. -/
theorem putsIsTheLoop : Obligations.PutsIsTheLoop :=
  ⟨fun x => decode_append_trap x 0x22#8, puts_isTheLoop⟩

/-- Settles O29: the word of the vector 0x24, and the loop. -/
theorem putspIsTheLoop : Obligations.PutspIsTheLoop :=
  ⟨fun x => decode_append_trap x 0x24#8, putsp_isTheLoop⟩

/-- Settles O27: the loop over a string, with one code a cell. -/
theorem putsRoundTrip : Obligations.PutsRoundTrip := by
  intro s cs hs
  rw [List.map_eq_flatMap]
  exact puts_isTheLoop.roundTrip hs

/-- Settles O30: the loop over a string, with one or two codes a cell. -/
theorem putspRoundTrip : Obligations.PutspRoundTrip :=
  fun _ _ hs => putsp_isTheLoop.roundTrip hs
end

section
/-! PROOFS. What an instruction may change (10_state.md R15 to R28). Two relations hold of every instruction, each
proved once: which registers, flag and PC it may write, and what it may do to the cells, the run, the host's events
and the field `held`. -/

open Sys2Proof.Claims

namespace Sys2Proof.Machine

/-! ## The ends of the instructions that can hold -/

/-- The state after a load into `dr`: it waits, or reads have given the value of `dr` (R96 to R98). -/
def LoadEnds (i : Instr) (dr : Reg) (s t : State) : Prop :=
  t = s.setHeld (some i) ∨ ∃ v u, PollsOnly s u ∧ u.out = s.out ∧ t = (u.setRegCc dr v).setHeld none

/-- The state after a walk: it waits with the link made, or reads have given the codes emitted (R109, R111). -/
def WalkEnds (i : Instr) (s t : State) : Prop :=
  t = s.trapLink.setHeld (some i) ∨
    ∃ u emitted, PollsOnly s.trapLink u ∧ u.out = s.out ++ emitted ∧ t = u.setHeld none

/-! ## Registers, COND and PC -/

/-- What an instruction may do to the registers, COND and PC (R15, R17, R19). -/
structure RegFrame (i : Instr) (s t : State) : Prop where
  regs : ∀ r, t.getReg r ≠ s.getReg r → mayWriteReg i r
  cond : writesCond i = false → t.cond = s.cond
  pc   : t.pc ≠ s.pc → isControl i = true

/-- A register that a write changes is the one written. -/
theorem eq_of_setReg_getReg_ne {s u : State} {d r : Reg} {v : Word} (hu : u.getReg r = s.getReg r)
    (h : (u.setReg d v).getReg r ≠ s.getReg r) : r = d := by
  by_contra hne
  exact h ((u.setReg_getReg_other d v r hne).trans hu)

/-- A register that the optional link changes is R7, if traps link (R105). -/
theorem linked_of_trapLink_getReg_ne {s : State} {r : Reg} (h : s.trapLink.getReg r ≠ s.getReg r) :
    r = 7 ∧ Config.trapLinksR7 = true := by
  by_contra hne
  exact h ((s.trapLink_getReg r).trans (if_neg hne))

/-- A register that GETC or IN changes is R0 or the linked R7 (R107, R110). -/
theorem received_of_getReg_ne {s u : State} {e : InputEvent} {r : Reg} (hu : u.getReg r = s.trapLink.getReg r)
    (h : (u.receive e).getReg r ≠ s.getReg r) : r = 0 ∨ (r = 7 ∧ Config.trapLinksR7 = true) := by
  by_cases h0 : r = 0
  · exact .inl h0
  · rw [State.receive_getReg, if_neg h0, hu] at h
    exact .inr (linked_of_trapLink_getReg_ne h)

section
variable {i : Instr} {s t : State}

theorem LoadEnds.regFrame {dr : Reg} (h : LoadEnds i dr s t) (hr : ∀ r, r = dr → mayWriteReg i r)
    (hc : writesCond i = true) : RegFrame i s t := by
  have hcond : writesCond i = false → t.cond = s.cond := fun hn => Bool.noConfusion (hc.symm.trans hn)
  rcases h with rfl | ⟨v, u, hp, -, rfl⟩
  · exact ⟨fun _ hne => absurd rfl hne, hcond, fun hne => absurd rfl hne⟩
  · exact ⟨fun r hne => hr r (eq_of_setReg_getReg_ne (hp.getReg r) hne), hcond, fun hne => absurd hp.pc hne⟩

theorem WalkEnds.regFrame (h : WalkEnds i s t) (hr : ∀ r, r = 7 ∧ Config.trapLinksR7 = true → mayWriteReg i r) :
    RegFrame i s t := by
  rcases h with rfl | ⟨u, -, hp, -, rfl⟩
  · exact ⟨fun r hne => hr r (linked_of_trapLink_getReg_ne hne), fun _ => rfl, fun hne => absurd rfl hne⟩
  · exact ⟨fun r hne => hr r (linked_of_trapLink_getReg_ne (hp.getReg r ▸ hne)), fun _ => hp.cond,
      fun hne => absurd hp.pc hne⟩

/-- Every instruction writes only the registers, the flag and PC that the rules give it (R15, R17, R19). -/
theorem exec_regFrame (h : exec i s = .next t) : RegFrame i s t := by
  cases i <;> obtain rfl := Host.Outcome.next.inj h
  case add | addImm | and | andImm | not | lea =>
    exact ⟨fun _ hr => eq_of_setReg_getReg_ne rfl hr, nofun, fun hpc => absurd rfl hpc⟩
  case br =>
    refine ⟨fun r hr => absurd ?_ hr, fun _ => ?_, fun _ => rfl⟩ <;> split <;> rfl
  case jmp => exact ⟨fun _ hr => absurd rfl hr, fun _ => rfl, fun _ => rfl⟩
  case jsr | jsrr => exact ⟨fun _ hr => eq_of_setReg_getReg_ne rfl hr, fun _ => rfl, fun _ => rfl⟩
  case st | str | rti | res => exact ⟨fun _ hr => absurd rfl hr, fun _ => rfl, fun hpc => absurd rfl hpc⟩
  case trapOut | trapHalt | trapUnsupported =>
    exact ⟨fun _ hr => linked_of_trapLink_getReg_ne hr, fun _ => rfl, fun hpc => absurd rfl hpc⟩
  case ld dr off => exact LoadEnds.regFrame (s.load_cases _ dr _) (fun _ hr => hr) rfl
  case ldr dr baseR off => exact LoadEnds.regFrame (s.load_cases _ dr _) (fun _ hr => hr) rfl
  case ldi dr off => exact LoadEnds.regFrame (s.loadIndirect_cases _ dr _) (fun _ hr => hr) rfl
  case trapPuts => exact WalkEnds.regFrame (s.putString_cases _ putsCodes) fun _ hr => hr
  case trapPutsp => exact WalkEnds.regFrame (s.putString_cases _ putspCodes) fun _ hr => hr
  case sti sr off =>
    rcases s.storeIndirect_cases (.sti sr off) sr (s.pcRel9 off) with hw | ⟨p, u, hr, hu⟩
    · exact hw ▸ ⟨fun _ hr => absurd rfl hr, fun _ => rfl, fun hpc => absurd rfl hpc⟩
    · have hp := State.memRead_pollsOnly hr
      exact hu ▸ ⟨fun r hr => absurd (hp.getReg r) hr, fun _ => hp.cond, fun hpc => absurd hp.pc hpc⟩
  case trapGetc =>
    rcases s.getc_cases with ⟨-, hw⟩ | ⟨e, rest, -, hu⟩
    · exact hw ▸ ⟨fun _ hr => .inr (linked_of_trapLink_getReg_ne hr), nofun, fun hpc => absurd rfl hpc⟩
    · exact hu ▸ ⟨fun r hr => received_of_getReg_ne (u := s.trapLink.setInput rest) rfl hr, nofun,
        fun hpc => absurd (State.receive_pc _ e) hpc⟩
  case trapIn =>
    rcases s.in_cases with ⟨-, hw⟩ | ⟨e, rest, -, hu⟩
    · exact hw ▸ ⟨fun _ hr => .inr (linked_of_trapLink_getReg_ne hr), nofun, fun hpc => absurd rfl hpc⟩
    · exact hu ▸ ⟨fun r hr => received_of_getReg_ne (u := (s.prompted.setInput rest).emit (echo e)) rfl hr, nofun,
        fun hpc => absurd (State.receive_pc _ e) hpc⟩

end

/-! ## Cells, the run, the input and the field `held` -/

/-- The status that an instruction leaves (R112 to R115, R118). -/
def statusAfter (i : Instr) (s : State) : RunStatus :=
  match i with
  | .trapHalt => .halted
  | .trapUnsupported v => .faulted (.unsupportedTrap v s.instrAddr)
  | .rti => .faulted (.unsupportedOpcode 0x8#4 s.instrAddr)
  | .res => .faulted (.unsupportedOpcode 0xD#4 s.instrAddr)
  | _ => s.status

/-- What an instruction may do to the cells, the output, the host's events, the run and the field `held` (R27, R28, R38,
R40, R73). -/
structure RunFrame (i : Instr) (s t : State) : Prop where
  cells   : ∀ a, t.cell a ≠ s.cell a →
    storesAt i s a ∨ ((a = Config.kbsrAddr ∨ a = Config.kbdrAddr) ∧ t.input ≠ s.input)
  wf      : Memory.wf s.mem = true → Memory.wf t.mem = true
  out     : ∃ codes, t.out = s.out ++ codes
  input   : ∃ taken, s.input = taken ++ t.input
  status  : t.status = statusAfter i s
  flushed : (i = .trapHalt ∧ t.flushed = t.out.length) ∨ (i ≠ .trapHalt ∧ t.flushed = s.flushed)
  held    : (canHold i = true ∧ (t.held = none ∨ t.held = some i)) ∨ (canHold i = false ∧ t.held = s.held)

/-- A cell that a write changes is the one written (R40). -/
theorem eq_of_memWrite_cell_ne {s u : State} {a b v : Word} (hu : u.cell b = s.cell b)
    (h : (u.memWrite a v).cell b ≠ s.cell b) : b = a := by
  by_contra hne
  exact h ((u.memWrite_cell_of_ne v hne).trans hu)

section
variable {i : Instr} {s t : State}

theorem append_nil_exists (l : List Byte) : ∃ codes, l = l ++ codes := ⟨[], (List.append_nil l).symm⟩

theorem LoadEnds.runFrame {dr : Reg} (h : LoadEnds i dr s t) (hh : canHold i = true)
    (hstatus : statusAfter i s = s.status) (hi : i ≠ .trapHalt) : RunFrame i s t := by
  rcases h with rfl | ⟨v, u, hp, ho, rfl⟩
  · exact ⟨fun _ hne => absurd rfl hne, id, append_nil_exists _, ⟨[], rfl⟩, hstatus.symm, .inr ⟨hi, rfl⟩,
      .inl ⟨hh, .inr rfl⟩⟩
  · exact ⟨fun a hne => .inr (hp.cells a hne), hp.wf, ⟨[], ho.trans (List.append_nil _).symm⟩, hp.input,
      hp.status.trans hstatus.symm, .inr ⟨hi, hp.flushed⟩, .inl ⟨hh, .inl rfl⟩⟩

theorem WalkEnds.runFrame (h : WalkEnds i s t) (hh : canHold i = true)
    (hstatus : statusAfter i s = s.status) (hi : i ≠ .trapHalt) : RunFrame i s t := by
  rcases h with rfl | ⟨u, emitted, hp, ho, rfl⟩
  · exact ⟨fun _ hne => absurd rfl hne, id, append_nil_exists _, ⟨[], rfl⟩, hstatus.symm, .inr ⟨hi, rfl⟩,
      .inl ⟨hh, .inr rfl⟩⟩
  · exact ⟨fun a hne => .inr (hp.cells a hne), hp.wf, ⟨emitted, ho⟩, hp.input,
      hp.status.trans hstatus.symm, .inr ⟨hi, hp.flushed⟩, .inl ⟨hh, .inl rfl⟩⟩

/-- The end of GETC and IN, on a state that has taken the event and emitted codes (R107, R110). -/
theorem runFrame_of_receive {u : State} {e : InputEvent} {rest : List InputEvent} {codes : List Byte}
    (hi : s.input = e :: rest) (hinput : u.input = rest) (hmem : u.mem = s.mem) (hout : u.out = s.out ++ codes)
    (hrun : u.status = s.status ∧ u.flushed = s.flushed) (hh : canHold i = true)
    (hstatus : statusAfter i s = s.status) (hne : i ≠ .trapHalt) : RunFrame i s ((u.receive e).setHeld none) := by
  have htaken : (u.receive e).input = rest := (u.receive_input e).trans hinput
  have hcell (a : Word) : u.cell a = s.cell a := by rw [State.cell, State.cell, hmem]
  refine ⟨fun a ha => .inr ⟨.inl ?_, ?_⟩, fun hwf => u.receive_wf e (hmem ▸ hwf),
    ⟨codes, (u.receive_out e).trans hout⟩, ⟨[e], hi.trans (htaken ▸ rfl)⟩,
    ((u.receive_status e).trans hrun.1).trans hstatus.symm, .inr ⟨hne, (u.receive_flushed e).trans hrun.2⟩,
    .inl ⟨hh, .inl rfl⟩⟩
  · by_contra hk
    exact ha ((u.receive_cell e a).trans ((if_neg fun h => hk h.2).trans (hcell a)))
  · intro heq
    exact absurd ((htaken.symm.trans heq).trans hi) (List.cons_ne_self e rest).symm

/-- Every instruction stays in its rules for the cells, the run and the events (R27, R28, R38, R40, R73). -/
theorem exec_runFrame (h : exec i s = .next t) : RunFrame i s t := by
  cases i <;> obtain rfl := Host.Outcome.next.inj h
  case add | addImm | and | andImm | not | lea | jmp | jsr | jsrr | rti | res | trapUnsupported =>
    exact ⟨fun _ hne => absurd rfl hne, id, append_nil_exists _, ⟨[], rfl⟩, rfl, .inr ⟨nofun, rfl⟩, .inr ⟨rfl, rfl⟩⟩
  case br n z p off =>
    cases branchTaken n z p s.cond <;>
    exact ⟨fun _ hne => absurd rfl hne, id, append_nil_exists _, ⟨[], rfl⟩, rfl, .inr ⟨nofun, rfl⟩, .inr ⟨rfl, rfl⟩⟩
  case st | str =>
    exact ⟨fun _ hne => .inl (eq_of_memWrite_cell_ne rfl hne), State.memWrite_wf s _ _, append_nil_exists _,
      ⟨[], rfl⟩, rfl, .inr ⟨nofun, rfl⟩, .inr ⟨rfl, rfl⟩⟩
  case trapOut =>
    exact ⟨fun _ hne => absurd rfl hne, id, ⟨_, rfl⟩, ⟨[], rfl⟩, rfl, .inr ⟨nofun, rfl⟩, .inr ⟨rfl, rfl⟩⟩
  case trapHalt =>
    exact ⟨fun _ hne => absurd rfl hne, id, ⟨_, rfl⟩, ⟨[], rfl⟩, rfl, .inl ⟨rfl, rfl⟩, .inr ⟨rfl, rfl⟩⟩
  case ld dr off => exact LoadEnds.runFrame (s.load_cases _ dr _) rfl rfl nofun
  case ldr dr baseR off => exact LoadEnds.runFrame (s.load_cases _ dr _) rfl rfl nofun
  case ldi dr off => exact LoadEnds.runFrame (s.loadIndirect_cases _ dr _) rfl rfl nofun
  case trapPuts => exact WalkEnds.runFrame (s.putString_cases _ putsCodes) rfl rfl nofun
  case trapPutsp => exact WalkEnds.runFrame (s.putString_cases _ putspCodes) rfl rfl nofun
  case sti sr off =>
    rcases s.storeIndirect_cases (.sti sr off) sr (s.pcRel9 off) with hw | ⟨p, u, hr, hu⟩
    · exact hw ▸ ⟨fun _ hne => absurd rfl hne, id, append_nil_exists _, ⟨[], rfl⟩, rfl, .inr ⟨nofun, rfl⟩,
        .inl ⟨rfl, .inr rfl⟩⟩
    · have hp := State.memRead_pollsOnly hr
      refine hu ▸ ⟨fun a hne => ?_, fun hwf => State.memWrite_wf u _ _ (hp.wf hwf),
        ⟨[], (State.memRead_out hr).trans (List.append_nil _).symm⟩, hp.input, hp.status, .inr ⟨nofun, hp.flushed⟩,
        .inl ⟨rfl, .inl rfl⟩⟩
      by_cases hua : u.cell a = s.cell a
      · exact .inl ⟨u, eq_of_memWrite_cell_ne hua hne ▸ hr⟩
      · exact .inr (hp.cells a hua)
  case trapGetc =>
    rcases s.getc_cases with ⟨-, hw⟩ | ⟨e, rest, hi, hu⟩
    · exact hw ▸ ⟨fun _ hne => absurd rfl hne, id, append_nil_exists _, ⟨[], rfl⟩, rfl, .inr ⟨nofun, rfl⟩,
        .inl ⟨rfl, .inr rfl⟩⟩
    · exact hu ▸ runFrame_of_receive hi rfl rfl (List.append_nil _).symm ⟨rfl, rfl⟩ rfl rfl nofun
  case trapIn =>
    rcases s.in_cases with ⟨-, hw⟩ | ⟨e, rest, hi, hu⟩
    · exact hw ▸ ⟨fun _ hne => absurd rfl hne, id, ⟨_, rfl⟩, ⟨[], rfl⟩, rfl, .inr ⟨nofun, rfl⟩,
        .inl ⟨rfl, .inr rfl⟩⟩
    · exact hu ▸ runFrame_of_receive hi rfl rfl (List.append_assoc _ _ _) ⟨rfl, rfl⟩ rfl rfl nofun

end

end Sys2Proof.Machine

open Sys2Proof Sys2Proof.Machine

/-- Settles O46: the registers that the rule lists. -/
theorem registerWriters : Obligations.RegisterWriters :=
  fun _ _ _ r h => (exec_regFrame h).regs r

/-- Settles O47: COND is written by the flag-defining instructions alone. -/
theorem condWriters : Obligations.CondWriters :=
  fun _ _ _ h => (exec_regFrame h).cond

/-- Settles O49: PC is written by the control transfers alone. -/
theorem pcWriters : Obligations.PcWriters :=
  fun _ _ _ h => (exec_regFrame h).pc

/-- Settles O50: a cell changes by a store at its address, or by an event taken. -/
theorem memoryWriters : Obligations.MemoryWriters :=
  fun _ _ _ a h => (exec_runFrame h).cells a
end

section
/-! PROOFS. Steps that hold (40_execution_cycle.md R73, 20_memory.md R42). An instruction that can hold has two parts:
what it has done when it reaches its read, and its end, which a missing event leaves undone. Both parts are the same
for a step that has held before, so that it goes on as the step from the start would. -/

open Sys2Proof.Claims

namespace Sys2Proof.Machine

/-! ## The two parts of an instruction that can hold -/

/-- The state that an instruction has reached when it holds, but for the field `held` (R73). -/
def atHold (i : Instr) (s : State) : State :=
  match i with
  | .trapIn => s.prompted
  | .trapGetc | .trapPuts | .trapPutsp => s.trapLink
  | _ => s

/-- The end of an instruction that can hold, from the state that it has reached; `none` when a read holds (R42). -/
def ending (i : Instr) (w : State) : Option State :=
  match i with
  | .ld dr off => w.loadFrom dr (w.pcRel9 off)
  | .ldi dr off => (w.memRead (w.pcRel9 off)).bind fun (p, t) => t.loadFrom dr p
  | .ldr dr baseR off => w.loadFrom dr (w.baseRel6 baseR off)
  | .sti sr off => (w.memRead (w.pcRel9 off)).map fun (p, t) => t.memWrite p (t.getReg sr)
  | .trapGetc => w.inputRead.map fun (e, t) => t.receive e
  | .trapPuts => w.putString putsCodes
  | .trapIn => w.inputRead.map fun (e, t) => (t.emit (echo e)).receive e
  | .trapPutsp => w.putString putspCodes
  | _ => some w

theorem exec_eq_orHold {i : Instr} (h : canHold i = true) (s : State) :
    exec i s = .next ((atHold i s).orHold i (ending i (atHold i s))) := by
  cases i
  case ld | ldi | ldr | sti | trapGetc | trapPuts | trapIn | trapPutsp => rfl
  all_goals cases h

section
variable (w : State) (h : Option Instr)

/-! ## The field `held` plays no part in the end -/

theorem State.inputRead_setHeld :
    (w.setHeld h).inputRead = w.inputRead.map fun (e, t) => (e, t.setHeld h) := by
  cases hi : w.input with
  | nil => rw [State.inputRead_nil hi, State.inputRead_nil (s := w.setHeld h) hi]; rfl
  | cons e rest => rw [State.inputRead_cons hi, State.inputRead_cons (s := w.setHeld h) hi]; rfl

/-- An event taken for an end that leaves the field: the read of GETC and of IN (R107, R110). -/
theorem State.inputRead_map_setHeld (k : InputEvent → State → State)
    (hk : ∀ e t, k e (t.setHeld h) = (k e t).setHeld h) :
    ((w.setHeld h).inputRead.map fun (e, t) => k e t) = (w.inputRead.map fun (e, t) => k e t).map (·.setHeld h) := by
  rw [State.inputRead_setHeld, Option.map_map, Option.map_map]
  congr 1
  funext ⟨e, t⟩
  exact hk e t

theorem State.receive_setHeld (e : InputEvent) : (w.setHeld h).receive e = (w.receive e).setHeld h := by
  cases e <;> rfl

theorem State.loadFrom_setHeld (dr : Reg) (ea : Word) :
    (w.setHeld h).loadFrom dr ea = (w.loadFrom dr ea).map (·.setHeld h) := by
  rw [State.loadFrom, State.memRead_setHeld, State.loadFrom, Option.map_map, Option.map_map]
  rfl

theorem State.putString_setHeld (codes : Word → List Byte) :
    (w.setHeld h).putString codes = (w.putString codes).map (·.setHeld h) :=
  State.stringWalk_setHeld codes h w.walkFuel (w.getReg 0) w

theorem ending_setHeld (i : Instr) : ending i (w.setHeld h) = (ending i w).map (·.setHeld h) := by
  cases i
  case ld dr off => exact w.loadFrom_setHeld h dr (w.pcRel9 off)
  case ldr dr baseR off => exact w.loadFrom_setHeld h dr (w.baseRel6 baseR off)
  case ldi dr off =>
    change ((w.setHeld h).memRead (w.pcRel9 off)).bind _ = ((w.memRead (w.pcRel9 off)).bind _).map _
    rw [State.memRead_setHeld, Option.bind_map, Option.map_bind]
    congr 1
    funext ⟨p, t⟩
    exact t.loadFrom_setHeld h dr p
  case sti sr off =>
    change ((w.setHeld h).memRead (w.pcRel9 off)).map _ = ((w.memRead (w.pcRel9 off)).map _).map _
    rw [State.memRead_setHeld, Option.map_map, Option.map_map]
    rfl
  case trapPuts => exact w.putString_setHeld h putsCodes
  case trapPutsp => exact w.putString_setHeld h putspCodes
  case trapGetc => exact w.inputRead_map_setHeld h (fun e t => t.receive e) fun e t => t.receive_setHeld h e
  case trapIn =>
    exact w.inputRead_map_setHeld h (fun e t => (t.emit (echo e)).receive e)
      fun e t => (t.emit (echo e)).receive_setHeld h e
  all_goals rfl

theorem State.orHold_setHeld (i : Instr) (r : Option State) :
    (w.setHeld h).orHold i (r.map (·.setHeld h)) = w.orHold i r := by
  cases r <;> rfl

end

/-! ## Going on after a hold -/

/-- What an instruction does before it reaches its read is done once (R73, R105, R110). -/
theorem atHold_atHold (i : Instr) (s : State) :
    atHold i ((atHold i s).setHeld (some i)) = (atHold i s).setHeld (some i) := by
  cases i
  case trapGetc | trapPuts | trapPutsp =>
    change s.trapLink.trapLink.setHeld _ = _
    rw [State.trapLink_trapLink]
    rfl
  case trapIn =>
    have hdue : (s.prompted.setHeld (some .trapIn)).promptDue = [] := State.promptDue_of_held rfl
    have hlink : (s.prompted.setHeld (some .trapIn)).trapLink = s.prompted.setHeld (some .trapIn) :=
      congrArg (fun x => (x.emit s.promptDue).setHeld (some .trapIn)) s.trapLink_trapLink
    change (s.prompted.setHeld (some .trapIn)).trapLink.emit (s.prompted.setHeld (some .trapIn)).promptDue = _
    rw [hdue, State.emit_nil, hlink]
    rfl
  all_goals rfl

/-- An instruction that has held goes on as from its start (R42, R73). -/
theorem exec_after_hold {i : Instr} (h : canHold i = true) (s : State) :
    exec i ((atHold i s).setHeld (some i)) = exec i s := by
  rw [exec_eq_orHold h, exec_eq_orHold h, atHold_atHold, ending_setHeld, State.orHold_setHeld]

/-- The host's event is no part of what is done before the read (R42). -/
theorem atHold_supplyInput (i : Instr) (s : State) (e : InputEvent) :
    (atHold i s).supplyInput e = atHold i (s.supplyInput e) := by
  cases i <;> rfl

/-! ## The step that holds -/

/-- What a poll makes KBSR read as is the word of no instruction that can hold (R38, R74). -/
theorem canHold_decode_polledKbsr (e : InputEvent) : canHold (decode (polledKbsr e)) = false := by
  cases e <;> rw [polledKbsr] <;> decide

/-- A fetch whose word is that of an instruction that can hold is not at KBSR (R74). -/
theorem pc_ne_kbsr_of_canHold {s u : State} {ir : Word} (hf : s.fetch = some (ir, u))
    (h : canHold (decode ir) = true) : s.pc ≠ Config.kbsrAddr := by
  intro hk
  obtain ⟨v, hr, -⟩ := fetch_eq_some hf
  rw [hk] at hr
  obtain ⟨hne, -⟩ | ⟨-, e, rest, hi, -⟩ := State.memRead_eq_some hr
  · exact hne rfl
  · obtain ⟨x, hx, -⟩ := State.memRead_polls hi
    obtain rfl : polledKbsr e = ir := congrArg Prod.fst (Option.some.inj (hx.symm.trans hr))
    exact Bool.noConfusion ((canHold_decode_polledKbsr e).symm.trans h)

/-- An instruction after which a step is in progress is that step's, and has reached its read (R73). -/
theorem exec_held {i j : Instr} {s t : State} (hn : s.held = none) (h : exec i s = .next t) (hj : t.held = some j) :
    j = i ∧ canHold i = true ∧ t = (atHold i s).setHeld (some i) := by
  obtain ⟨hcan, -⟩ | ⟨-, hsame⟩ := (exec_runFrame h).held
  · rw [exec_eq_orHold hcan] at h
    obtain rfl := Host.Outcome.next.inj h
    obtain ⟨-, hw⟩ | ⟨x, -, hx⟩ := State.orHold_cases (atHold i s) i (ending i (atHold i s))
    · rw [hw] at hj
      exact ⟨(Option.some.inj hj).symm, hcan, hw⟩
    · rw [hx] at hj
      cases hj
  · cases (hsame.trans hn).symm.trans hj

/-- A step that holds has fetched a plain cell and has reached its instruction's read (R73, R74). -/
theorem step_held {s t : State} {i : Instr} (hn : s.held = none) (h : step s = .next t) (hi : t.held = some i) :
    s.status = .running ∧ s.pc ≠ Config.kbsrAddr ∧ i = decode (s.cell s.pc) ∧ canHold i = true ∧
      t = (atHold i s.incPc).setHeld (some i) := by
  obtain ⟨hs, ⟨j, hj, -⟩ | ⟨j, hj, -⟩ | ⟨-, -, rfl⟩ | ⟨-, ir, u, hf, hexec⟩⟩ := step_cases h
  · cases hn.symm.trans hj
  · cases hn.symm.trans hj
  · cases hn.symm.trans hi
  · obtain ⟨hp, -⟩ := State.fetch_pollsOnly hf
    obtain ⟨rfl, hcan, ht⟩ := exec_held (hp.held.trans hn) hexec hi
    have hpc := pc_ne_kbsr_of_canHold hf hcan
    rw [fetch_plain hpc] at hf
    obtain ⟨rfl, rfl⟩ := Prod.mk.inj (Option.some.inj hf)
    exact ⟨hs, hpc, rfl, hcan, ht⟩

/-- The registers at the hold (R73). -/
theorem atHold_getReg {i : Instr} (s : State) (h : canHold i = true) (r : Reg) : (atHold i s).getReg r =
    if r = 7 ∧ isHoldingTrap i = true ∧ Config.trapLinksR7 = true then s.pc else s.getReg r := by
  cases i
  case ld | ldi | ldr | sti => exact (if_neg fun ⟨_, htrap, _⟩ => Bool.noConfusion htrap).symm
  case trapGetc | trapPuts | trapIn | trapPutsp =>
    exact (s.trapLink_getReg r).trans (if_congr (by simp [isHoldingTrap]) rfl rfl)
  all_goals cases h

/-- The output at the first hold (R73). -/
theorem atHold_out (i : Instr) {s : State} (hn : s.held = none) : (atHold i s).out = s.out ++ codesAtHold i := by
  cases i
  case trapIn =>
    have hdue : s.promptDue = Config.inPrompt := State.promptDue_of_not_held (by rw [hn]; nofun)
    rw [atHold, State.prompted_out, hdue]
    rfl
  all_goals exact (List.append_nil _).symm

/-- The rest of the state at the hold (R73). -/
theorem atHold_frame (i : Instr) (s : State) : (atHold i s).pc = s.pc ∧ (atHold i s).cond = s.cond ∧
    SameCells s (atHold i s) ∧ (atHold i s).status = s.status ∧ (atHold i s).flushed = s.flushed ∧
    (atHold i s).input = s.input := by
  cases i <;> exact ⟨rfl, rfl, fun _ => rfl, rfl, rfl, rfl⟩

/-! ## GETC and IN -/

/-- What GETC and IN have in common: with no event the instruction waits, `codes` emitted, and with a character it
completes, `echoed` emitted (R107, R110). -/
structure HoldsThenCompletes (i : Instr) (codes : State → List Byte) (echoed : State → Byte → List Byte) : Prop where
  hold : ∀ s : State, s.input = [] → ∃ t, exec i s = .next t ∧ TrapWaits i (codes s) s t
  char : ∀ (s : State) (b : Byte) (rest : List InputEvent), s.input = .char b :: rest → ∃ u, exec i s = .next u ∧
    u.getReg 0 = BitVec.ofNat 16 b.toNat ∧ u.out = s.out ++ echoed s b ∧ u.pc = s.pc ∧ u.input = rest ∧ u.held = none

/-- GETC emits nothing (R107). -/
theorem holdsThenCompletes_getc : HoldsThenCompletes .trapGetc (fun _ => []) fun _ _ => [] where
  hold s hi := by
    obtain ⟨-, -, hhold⟩ := getcReadsOneCharacter s
    exact hhold hi
  char s b rest hi := by
    obtain ⟨hchar, -, -⟩ := getcReadsOneCharacter s
    obtain ⟨u, hu, ⟨hr0, -, -, hpc⟩, -, ⟨-, ho, -⟩, hin, hh⟩ := hchar b rest hi
    exact ⟨u, hu, hr0, ho.trans (List.append_nil _).symm, hpc, hin, hh⟩

/-- IN emits the prompt that is left, and echoes the character (R110). -/
theorem holdsThenCompletes_in : HoldsThenCompletes .trapIn promptLeft fun s b => promptLeft s ++ [b] where
  hold s hi := by
    obtain ⟨-, -, hhold⟩ := inReadsAndEchoes s
    exact hhold hi
  char s b rest hi := by
    obtain ⟨hchar, -, -⟩ := inReadsAndEchoes s
    obtain ⟨u, hu, ⟨hr0, -, -, hpc⟩, -, ho, -, -, hin, hh⟩ := hchar b rest hi
    exact ⟨u, hu, hr0, ho.trans (List.append_assoc _ _ _), hpc, hin, hh⟩

/-- The run of such an instruction: the hold, the wait, and the completion when the host supplies a character (R42). -/
theorem HoldsThenCompletes.run {i : Instr} {codes : State → List Byte} {echoed : State → Byte → List Byte}
    (h : HoldsThenCompletes i codes echoed) {s : State} (hs : s.status = .running) (hi : s.input = []) :
    ∃ t, exec i s = .next t ∧ t.held = some i ∧ t.out = s.out ++ codes s ∧ step t = .next t ∧
      ∀ b : Byte, ∃ u, step (t.supplyInput (.char b)) = .next u ∧ u.getReg 0 = BitVec.ofNat 16 b.toNat ∧
        u.out = t.out ++ echoed (t.supplyInput (.char b)) b ∧ u.pc = s.pc ∧ u.input = [] ∧ u.held = none := by
  obtain ⟨t, ht, ⟨-, -, hpc⟩, -, hstatus, -, hin, hout, hheld⟩ := h.hold s hi
  have hrun : t.status = .running := hstatus.trans hs
  have hnone : t.input = [] := hin.trans hi
  refine ⟨t, ht, hheld, hout, step_of_wait hrun hheld hnone, fun b => ?_⟩
  have hsome : (t.supplyInput (.char b)).input = [.char b] := by
    rw [State.supplyInput_input, hnone, List.nil_append]
  obtain ⟨u, hu, hr0, huo, hupc, hrest⟩ := h.char (t.supplyInput (.char b)) b [] hsome
  have hresume : step (t.supplyInput (.char b)) = exec i (t.supplyInput (.char b)) :=
    step_of_resume hrun hheld (hsome ▸ List.cons_ne_nil _ _)
  exact ⟨u, hresume.trans hu, hr0, huo, hupc.trans hpc, hrest⟩

end Sys2Proof.Machine

open Sys2Proof Sys2Proof.Machine

/-- Settles O43: the state at the hold, field by field, and the step from a state with a step in progress. -/
theorem heldStepEffects : Obligations.HeldStepEffects := by
  refine ⟨?holds, ?goesOn⟩
  case holds =>
    intro s t i hn h hi
    obtain ⟨-, -, hdec, hcan, rfl⟩ := step_held hn h hi
    obtain ⟨hpc, hcond, hcells, hstatus, hflushed, hinput⟩ := atHold_frame i s.incPc
    exact ⟨hcan, hdec, hpc, atHold_getReg s.incPc hcan, atHold_out i (s := s.incPc) hn, hcond, hcells, hstatus,
      hflushed, hinput⟩
  case goesOn => exact fun s i hs hi => ⟨step_of_wait hs hi, step_of_resume hs hi⟩

/-- Settles O44: with the event the step in progress is its instruction again, which has done the first part already. -/
theorem heldStepEndsAlike : Obligations.HeldStepEndsAlike := by
  intro s t e hn h ht
  obtain ⟨i, hi⟩ := Option.ne_none_iff_exists'.mp ht
  obtain ⟨hs, hpc, hdec, hcan, rfl⟩ := step_held hn h hi
  have hstart : step (s.supplyInput e) = exec i (s.incPc.supplyInput e) := by
    rw [hdec]
    exact step_of_fetch hs hn (fetch_plain (s := s.supplyInput e) hpc)
  have hstatus : (atHold i s.incPc).status = .running := by
    obtain ⟨-, -, -, hstatus, -⟩ := atHold_frame i s.incPc
    exact hstatus.trans hs
  have hresume : step (((atHold i s.incPc).setHeld (some i)).supplyInput e) =
      exec i (((atHold i s.incPc).setHeld (some i)).supplyInput e) :=
    step_of_resume hstatus rfl (List.append_ne_nil_of_right_ne_nil _ (List.cons_ne_nil e []))
  have hsupply : ((atHold i s.incPc).setHeld (some i)).supplyInput e =
      (atHold i (s.incPc.supplyInput e)).setHeld (some i) :=
    congrArg (·.setHeld (some i)) (atHold_supplyInput i s.incPc e)
  rw [hresume, hstart, hsupply, exec_after_hold hcan]

/-- Settles O42: the hold and the completion are those of GETC and of IN, from the state after the fetch and from the
state that waits, whose prompt is emitted. -/
theorem inputTrapsHold : Obligations.InputTrapsHold := by
  intro s hs hn hpc hi hdec
  obtain ⟨hplain, -, -⟩ := stepRunsTheDecodedInstruction s
  rw [hplain hs hn hpc]
  rcases hdec with hdec | hdec <;> rw [hdec]
  · exact holdsThenCompletes_getc.run (s := s.incPc) hs hi
  · obtain ⟨t, ht, hth, hto, hwait, hgoes⟩ := holdsThenCompletes_in.run (s := s.incPc) hs hi
    have hprompt : promptLeft s.incPc = Config.inPrompt := State.promptDue_of_not_held (s := s.incPc) (hn ▸ nofun)
    rw [hprompt] at hto
    refine ⟨t, ht, hth, hto, hwait, fun b => ?_⟩
    obtain ⟨u, hu, hr0, huo, hrest⟩ := hgoes b
    have hnone : promptLeft (t.supplyInput (.char b)) = [] := State.promptDue_of_held hth
    rw [hnone] at huo
    exact ⟨u, hu, hr0, huo, hrest⟩
end

section
/-! PROOFS. The step and the run (10_state.md, 60_exceptions.md). A step executes an instruction, in its own state or
in the one after the fetch, or changes nothing; what the instruction may do to the run is `RunFrame`. -/

open Sys2Proof.Claims

namespace Sys2Proof.Machine

/-! ## The status after an instruction -/

/-- Only HALT ends a run normally (R112, R133). -/
theorem statusAfter_eq_halted {i : Instr} {s : State} (hs : s.status = .running) :
    statusAfter i s = .halted ↔ i = .trapHalt := by
  cases i <;> simp [statusAfter, hs]

/-- Only the fatal instructions end a run in a fatal condition (R116). -/
theorem statusAfter_eq_faulted {i : Instr} {s : State} (hs : s.status = .running) :
    (∃ f, statusAfter i s = .faulted f) ↔ isFatal i = true := by
  cases i <;> simp [statusAfter, hs, isFatal]

/-- An instruction that can hold ends no run (R104). -/
theorem statusAfter_of_canHold {i : Instr} (h : canHold i = true) (s : State) : statusAfter i s = s.status := by
  cases i
  case ld | ldi | ldr | sti | trapGetc | trapPuts | trapIn | trapPutsp => rfl
  all_goals cases h

/-! ## From the step to the instruction -/

/-- What the fetch leaves of the run (R74). -/
structure FetchKeeps (s u : State) : Prop where
  status  : u.status = s.status
  out     : u.out = s.out
  flushed : u.flushed = s.flushed
  held    : u.held = s.held
  input   : ∃ taken, s.input = taken ++ u.input
  wf      : Memory.wf s.mem = true → Memory.wf u.mem = true

theorem FetchKeeps.refl (s : State) : FetchKeeps s s := ⟨rfl, rfl, rfl, rfl, ⟨[], rfl⟩, id⟩

theorem fetchKeeps_of_fetch {s u : State} {ir : Word} (h : s.fetch = some (ir, u)) : FetchKeeps s u := by
  obtain ⟨hp, ho⟩ := State.fetch_pollsOnly h
  exact ⟨hp.status, ho, hp.flushed, hp.held, hp.input, hp.wf⟩

/-- A step changes nothing, or executes an instruction: the one in progress, or the one fetched (R42, R72). -/
theorem step_eq_or_exec {s t : State} (h : step s = .next t) : s.status = .running ∧
    (t = s ∨ ∃ i u, FetchKeeps s u ∧ exec i u = .next t ∧ (s.held = none ∨ s.held = some i)) := by
  obtain ⟨hs, ⟨_, _, _, rfl⟩ | ⟨i, hi, _, he⟩ | ⟨_, _, rfl⟩ | ⟨hn, ir, u, hf, he⟩⟩ := step_cases h
  · exact ⟨hs, .inl rfl⟩
  · exact ⟨hs, .inr ⟨i, s, .refl s, he, .inr hi⟩⟩
  · exact ⟨hs, .inl rfl⟩
  · exact ⟨hs, .inr ⟨decode ir, u, fetchKeeps_of_fetch hf, he, .inl hn⟩⟩

/-- An instruction executed while Running delivers its output exactly when it ends the run by HALT (R112). -/
theorem RunFrame.delivery {i : Instr} {u t : State} (h : RunFrame i u t) (hu : u.status = .running) :
    (t.status = .halted ∧ t.flushed = t.out.length) ∨ (t.status ≠ .halted ∧ t.flushed = u.flushed) := by
  rw [h.status]
  rcases h.flushed with ⟨rfl, hf⟩ | ⟨hne, hf⟩
  · exact .inl ⟨rfl, hf⟩
  · exact .inr ⟨fun hh => hne ((statusAfter_eq_halted hu).mp hh), hf⟩

/-- What a step can have done to the output, the events and the delivery (R27, R28). -/
theorem step_run {s t : State} (h : step s = .next t) :
    (∃ codes, t.out = s.out ++ codes) ∧ (∃ taken, s.input = taken ++ t.input) ∧
    ((t.status = .halted ∧ t.flushed = t.out.length) ∨ (t.status ≠ .halted ∧ t.flushed = s.flushed)) := by
  obtain ⟨hs, rfl | ⟨i, u, hk, he, -⟩⟩ := step_eq_or_exec h
  · exact ⟨append_nil_exists _, ⟨[], rfl⟩, .inr ⟨by rw [hs]; nofun, rfl⟩⟩
  · have hr := exec_runFrame he
    obtain ⟨x, hx⟩ := hk.input
    obtain ⟨y, hy⟩ := hr.input
    refine ⟨hk.out ▸ hr.out, ⟨x ++ y, by rw [hx, hy, List.append_assoc]⟩, ?_⟩
    rw [← hk.flushed]
    exact hr.delivery (hk.status.trans hs)

/-! ## The invariant -/

/-- The fetch keeps the invariant (R74). -/
theorem FetchKeeps.inv {s u : State} (hk : FetchKeeps s u) (h : s.inv) : u.inv := by
  obtain ⟨hwf, hle, hhalt, hheld⟩ := h
  refine ⟨hk.wf hwf, ?_, ?_, ?_⟩
  · rw [hk.out, hk.flushed]
    exact hle
  · rw [hk.status, hk.out, hk.flushed]
    exact hhalt
  · rw [hk.status, hk.held]
    exact hheld

/-- An instruction executed while Running, with no step in progress but its own, keeps the invariant. -/
theorem RunFrame.inv {i : Instr} {u t : State} (hr : RunFrame i u t) (h : u.inv) (hs : u.status = .running)
    (hi : u.held = none ∨ u.held = some i) : t.inv := by
  obtain ⟨hwf, hle, -, hheld⟩ := h
  obtain ⟨codes, hout⟩ := hr.out
  have hlen : u.out.length ≤ t.out.length := by
    rw [hout, List.length_append]
    exact Nat.le_add_right _ _
  have hdelivery := hr.delivery hs
  refine ⟨hr.wf hwf, ?_, ?_, ?_⟩
  · rcases hdelivery with ⟨-, hf⟩ | ⟨-, hf⟩
    · exact hf.le
    · exact hf ▸ hle.trans hlen
  · intro hh
    rcases hdelivery with ⟨-, hf⟩ | ⟨hne, -⟩
    · exact hf
    · exact absurd hh hne
  · intro j hj
    rcases hr.held with ⟨hcan, hn | hsome⟩ | ⟨hcan, hsame⟩
    · cases hn.symm.trans hj
    · obtain rfl : i = j := Option.some.inj (hsome.symm.trans hj)
      exact ⟨hr.status.trans ((statusAfter_of_canHold hcan u).trans hs), hcan⟩
    · rcases hi with hn | hsome
      · cases hn.symm.trans (hsame.symm.trans hj)
      · obtain ⟨-, hcan'⟩ := hheld i hsome
        exact Bool.noConfusion (hcan.symm.trans hcan')

end Sys2Proof.Machine

open Sys2Proof Sys2Proof.Machine

/-- Settles O55: a step changes nothing, or is a fetch and an instruction, and both keep the invariant. -/
theorem stepKeepsInvariant : Obligations.StepKeepsInvariant := by
  intro s t hinv h
  obtain ⟨hs, rfl | ⟨i, u, hk, he, hi⟩⟩ := step_eq_or_exec h
  · exact hinv
  · exact (exec_runFrame he).inv (hk.inv hinv) (hk.status.trans hs) (hk.held ▸ hi)

/-- Settles O51: the relation of each instruction, after a fetch that leaves the output and takes events from the
front. -/
theorem outputGrowsInputShrinks : Obligations.OutputGrowsInputShrinks := by
  intro s t h
  obtain ⟨hout, hinput, hdelivery⟩ := step_run h
  refine ⟨hout, hinput, fun hh => ?_, fun hh => ?_⟩
  · obtain ⟨-, hf⟩ := hdelivery.resolve_right fun hn => hn.1 hh
    exact hf
  · obtain ⟨-, hf⟩ := hdelivery.resolve_left fun hn => hh hn.1
    exact hf

/-- Settles O60: HALT delivers all the output, and a fatal condition delivers nothing itself. -/
theorem outputAtTheEndOfARun : Obligations.OutputAtTheEndOfARun := by
  intro s t h
  obtain ⟨-, -, hhalted, hother⟩ := outputGrowsInputShrinks s t h
  refine ⟨fun (hn : t.status = .halted) => ?_, fun ⟨f, hf⟩ => ?_⟩
  · rw [State.hostOutput, hn, hhalted hn]
    exact List.take_length
  · rw [State.hostOutput, hf, hother (by rw [hf]; nofun)]

/-- Settles O45: the status that each instruction leaves. -/
theorem runEndsOnlyByHaltOrFatal : Obligations.RunEndsOnlyByHaltOrFatal := by
  refine ⟨?running, ?fetched, ?fetchHolds, ?resumed⟩
  case running =>
    intro s t h
    obtain ⟨hs, -⟩ := step_cases h
    exact hs
  case fetched =>
    intro s t u ir hn hf h
    obtain ⟨hs, -⟩ := step_cases h
    have hu : u.status = .running := (fetchKeeps_of_fetch hf).status.trans hs
    rw [step_of_fetch hs hn hf] at h
    rw [(exec_runFrame h).status]
    exact ⟨statusAfter_eq_halted hu, statusAfter_eq_faulted hu⟩
  case fetchHolds =>
    intro s t hn hf h
    obtain ⟨hs, -⟩ := step_cases h
    rw [step_of_hold hs hn hf] at h
    exact (Host.Outcome.next.inj h).symm
  case resumed =>
    intro s t hinv hheld h
    obtain ⟨hs, rfl | ⟨i, u, hk, he, hi⟩⟩ := step_eq_or_exec h
    · exact hs
    · obtain ⟨-, -, -, hcan⟩ := hinv
      obtain ⟨-, hcan⟩ := hcan i (hi.resolve_left hheld)
      exact (exec_runFrame he).status.trans ((statusAfter_of_canHold hcan u).trans (hk.status.trans hs))

/-- Settles O41: the poll of the fetch makes the word 0x8000, which is RTI, or 0x0000, a branch with no condition. -/
theorem fetchAtKbsrPolls : Obligations.FetchAtKbsrPolls := by
  intro s hs hn (hpc : s.pc = Config.kbsrAddr)
  refine ⟨?char, ?eof, ?hold⟩
  case char =>
    intro b rest hi
    obtain ⟨u, hr, hcells, hinput, hregs, hcond, -, ⟨-, hout, -⟩, hheld⟩ := State.memRead_polls hi
    have hrti : decode (polledKbsr (.char b)) = .rti := by rw [polledKbsr]; decide
    have hfault : RunStatus.faulted (.unsupportedOpcode 0x8#4 (Config.kbsrAddr + 1#16 - 1#16)) =
        .faulted (.unsupportedOpcode 0x8 0xFE00#16) := by decide
    rw [step_of_memRead hs hn (hpc ▸ hr), hrti, hpc]
    exact ⟨_, rfl, hfault, rfl, hinput, hcells, hregs, hcond, hout, hheld.trans hn⟩
  case eof =>
    intro rest hi
    obtain ⟨u, hr, hcells, hinput, hregs, hcond, -, ⟨hstatus, hout, -⟩, hheld⟩ := State.memRead_polls hi
    have hbr : decode (polledKbsr .eof) = .br false false false 0 := by decide
    rw [step_of_memRead hs hn (hpc ▸ hr), hbr, hpc]
    exact ⟨_, rfl, hstatus.trans hs, rfl, hinput, hcells, hregs, hcond, hout, hheld.trans hn⟩
  case hold =>
    intro hi
    exact step_of_hold hs hn (fetch_eq_none.mpr (State.memRead_eq_none.mpr ⟨hpc, hi⟩))

/-- Settles O52: the store of ST with offset 0 is at PC', and the next fetch is plain. -/
theorem storeIsSeenByNextFetch : Obligations.StoreIsSeenByNextFetch := by
  intro s sr hs hn hpc hpc' hcell
  have hdec : decode (s.cell s.pc) = .st sr 0 := hcell ▸ decode_pcRelativeWord_st sr 0
  have hfirst : step s = exec (.st sr 0) s.incPc := by
    rw [step_of_fetch hs hn (fetch_plain hpc), hdec]
  have haddr : s.incPc.pcRel9 0 = s.pc + 1#16 := BitVec.add_zero _
  obtain ⟨t, ht⟩ : ∃ t, t = s.incPc.memWrite (s.pc + 1#16) (s.getReg sr) := ⟨_, rfl⟩
  have hexec : exec (.st sr 0) s.incPc = .next t := by rw [ht, ← haddr]; rfl
  have htpc : t.pc = s.pc + 1#16 := ht ▸ rfl
  have htcell : t.cell t.pc = s.getReg sr := by rw [htpc, ht, State.memWrite_cell_same]
  have hsecond : step t = exec (decode (t.cell t.pc)) { t with pc := t.pc + 1#16 } := by
    obtain ⟨hplain, -, -⟩ := stepRunsTheDecodedInstruction t
    exact hplain (ht ▸ hs) (ht ▸ hn) (htpc ▸ hpc')
  refine ⟨t, hfirst.trans hexec, htpc, htcell, ?_⟩
  rw [hsecond, htcell, htpc, BitVec.add_assoc]
  rfl

/-- Settles O53: the call of `callPcRelative`, then the jump of `jumpRule` to the link. -/
theorem callThenReturn : Obligations.CallThenReturn := by
  intro s off hs hn hpc hcell htarget hret
  obtain ⟨-, hcall⟩ := callPcRelative
  obtain ⟨-, hdecRet, hjump⟩ := jumpRule
  obtain ⟨t, ht, htpc, ht7, htregs, htcond, htcells, ⟨hts, hto, htf⟩, hti, hth⟩ := hcall off s.incPc
  obtain ⟨u, hu, hupc, huregs, hucond, hucells, ⟨hus, huo, huf⟩, hui, huh⟩ := hjump 7 t.incPc
  have hfirst : step s = .next t := by
    rw [step_of_fetch hs hn (fetch_plain hpc), hcell, decode_append_jsr, ht]
  have haddr : BitVec.ofInt 16 (s.incPc.pc.toInt + off.toInt) = BitVec.ofInt 16 (s.pc.toInt + 1 + off.toInt) := by
    rw [BitVec.ofInt_add, BitVec.ofInt_add, BitVec.ofInt_add, BitVec.ofInt_toInt, BitVec.ofInt_toInt]
    rfl
  rw [haddr] at htpc
  have hword : t.cell t.pc = 0xC1C0#16 := by rw [htcells, htpc]; exact hret
  have hsecond : step t = .next u := by
    rw [step_of_fetch (hts.trans hs) (hth.trans hn) (fetch_plain (htpc ▸ htarget)), hword]
    exact (congrArg (exec · t.incPc) hdecRet).trans hu
  exact ⟨u, ⟨t, hfirst, u, hsecond, rfl⟩, hupc.trans ht7, (huregs 7).trans ht7,
    fun r hr => (huregs r).trans (htregs r hr), hucond.trans htcond, fun a => (hucells a).trans (htcells a),
    ⟨hus.trans hts, huo.trans hto, huf.trans htf⟩,
    hui.trans hti, huh.trans (hth.trans hn)⟩
end

section
/-! PROOFS. Memory as data, the reset and the load (10_state.md, 70_reset_and_hazards.md). Two canonical lists that
read the same have the same first entry, and so the same rest; the loader writes consecutive cells, which do not meet
as long as the image does not run past 0xFFFF. -/

open Sys2Proof.Claims

namespace Sys2Proof.Machine

/-! ## Canonical memories -/

theorem wfFrom_cons {lo a : Nat} {v : Word} {m : Memory} :
    Memory.wfFrom lo ((a, v) :: m) = true ↔
      lo ≤ a ∧ a < 65536 ∧ v ≠ Memory.unlisted ∧ Memory.wfFrom (a + 1) m = true := by
  simp only [Memory.wfFrom, Bool.and_eq_true, decide_eq_true_eq, and_assoc]

theorem read_head (a : Nat) (v : Word) (m : Memory) : Memory.read a ((a, v) :: m) = v := by
  rw [Memory.read_cons, if_pos rfl]

/-- The first entry is the first cell that is not 0. -/
theorem le_of_read_ne {a : Nat} {v : Word} {m n : Memory} {lo : Nat} (hn : Memory.wfFrom lo n = true)
    (hread : Memory.read a ((a, v) :: m) = Memory.read a n) (hv : v ≠ Memory.unlisted) : lo ≤ a := by
  by_contra hlt
  rw [read_head, Memory.read_of_wfFrom hn (not_le.mp hlt)] at hread
  exact hv hread

/-- Canonical memories that read the same are the same list (log entry 10). -/
theorem eq_of_read_eq {lo : Nat} {m n : Memory} (hm : Memory.wfFrom lo m = true) (hn : Memory.wfFrom lo n = true)
    (h : ∀ a < 65536, Memory.read a m = Memory.read a n) : m = n := by
  induction m generalizing lo n with
  | nil =>
    cases n with
    | nil => rfl
    | cons q n =>
      obtain ⟨b, u⟩ := q
      obtain ⟨-, hb, hu, -⟩ := wfFrom_cons.mp hn
      exact absurd ((read_head b u n).symm.trans (h b hb).symm) hu
  | cons p m ih =>
    obtain ⟨a, v⟩ := p
    obtain ⟨-, ha, hv, hm'⟩ := wfFrom_cons.mp hm
    cases n with
    | nil => exact absurd ((read_head a v m).symm.trans (h a ha)) hv
    | cons q n =>
      obtain ⟨b, u⟩ := q
      obtain ⟨-, hb, hu, hn'⟩ := wfFrom_cons.mp hn
      have hba : b ≤ a := le_of_read_ne (wfFrom_cons.mpr ⟨le_refl b, hb, hu, hn'⟩) (h a ha) hv
      have hab : a ≤ b := le_of_read_ne (wfFrom_cons.mpr ⟨le_refl a, ha, hv, hm'⟩) (h b hb).symm hu
      obtain rfl : a = b := le_antisymm hab hba
      obtain rfl : v = u := (read_head a v m).symm.trans ((h a ha).trans (read_head a u n))
      have hrest (c : Nat) (hc : c < 65536) : Memory.read c m = Memory.read c n := by
        by_cases hca : c = a
        · rw [hca, Memory.read_of_wfFrom hm' (Nat.lt_succ_self a), Memory.read_of_wfFrom hn' (Nat.lt_succ_self a)]
        · have hread := h c hc
          rwa [Memory.read_cons, Memory.read_cons, if_neg hca, if_neg hca] at hread
      rw [ih hm' hn' hrest]

/-! ## The reset -/

theorem State.resetWith_getReg (gpr : Reg → Word) (r : Reg) : (State.resetWith gpr).getReg r = gpr r := by
  simp [State.resetWith, State.getReg, Vector.get_eq_getElem]

theorem State.resetWith_inv (gpr : Reg → Word) : (State.resetWith gpr).inv :=
  ⟨rfl, le_refl 0, nofun, nofun⟩

/-! ## The image -/

/-- The two bytes of a word are the word (R43). -/
theorem high8_append_low8 (w : Word) : high8 w ++ low8 w = w := by
  rw [← highByte_eq_high8, ← lowByte_eq_low8]
  exact (BitVec.extractLsb'_append_extractLsb'_eq_extractLsb' (start₁ := 0) (len₁ := 8) (len₂ := 8) rfl).trans
    BitVec.extractLsb'_eq_self

/-- The loader reads back the words of an image (R43, R135). -/
theorem imageWords_imageBytes (ws : List Word) : imageWords (imageBytes ws) = some ws := by
  induction ws with
  | nil => rfl
  | cons w ws ih => rw [imageBytes, imageWords, ih, high8_append_low8, Option.map_some]

theorem imageWords_of_odd {bytes : List Byte} (h : bytes.length % 2 = 1) : imageWords bytes = none := by
  induction bytes using imageWords.induct with
  | case1 => cases h
  | case2 => rfl
  | case3 b0 b1 rest ih =>
    have hrest : rest.length % 2 = 1 := by
      rw [List.length_cons, List.length_cons] at h
      omega
    rw [imageWords, ih hrest, Option.map_none]

theorem loadImage_imageBytes (s : State) (origin : Word) (ws : List Word) :
    s.loadImage (imageBytes (origin :: ws)) =
      if origin.toNat + ws.length ≤ 65536 then .next (s.loadWords origin ws) else .refused .malformedImage := by
  rw [State.loadImage, imageWords_imageBytes]

/-! ## The load -/

/-- The load writes memory and nothing else (R135). -/
theorem loadWords_frame (s : State) (a : Word) (ws : List Word) : ∃ m, s.loadWords a ws = { s with mem := m } := by
  induction ws generalizing s a with
  | nil => exact ⟨s.mem, rfl⟩
  | cons w ws ih => exact ih (s.memWrite a w) (a + 1#16)

/-- The load leaves every cell that is none of the image's (R135). -/
theorem loadWords_cell_other (s : State) {a b : Word} {ws : List Word}
    (h : ∀ k < ws.length, b ≠ a + BitVec.ofNat 16 k) : (s.loadWords a ws).cell b = s.cell b := by
  induction ws generalizing s a with
  | nil => rfl
  | cons w ws ih =>
    have hb : b ≠ a := by simpa using h 0 (Nat.succ_pos _)
    have htail (k : Nat) (hk : k < ws.length) : b ≠ a + 1#16 + BitVec.ofNat 16 k := by
      rw [← add_ofNat_succ]
      exact h (k + 1) (Nat.succ_lt_succ hk)
    rw [State.loadWords, ih (s.memWrite a w) htail, State.memWrite_cell_of_ne s w hb]

/-- A first cell is none of the next 65,535 (R25). -/
theorem ne_add_ofNat {a : Word} {k : Nat} (h0 : 0 < k) (hk : k < 65536) : a ≠ a + BitVec.ofNat 16 k := by
  intro heq
  have hzero : BitVec.ofNat 16 k = 0#16 := BitVec.self_eq_add_right.mp heq
  have hnum := congrArg BitVec.toNat hzero
  rw [BitVec.toNat_ofNat, BitVec.toNat_ofNat] at hnum
  omega

/-- The load puts the words into consecutive cells, as many as there are (R135). -/
theorem loadWords_cell (s : State) (a : Word) (ws : List Word) (hlen : ws.length ≤ 65536) (k : Nat)
    (hk : k < ws.length) : (s.loadWords a ws).cell (a + BitVec.ofNat 16 k) = ws[k] := by
  induction ws generalizing s a k with
  | nil => cases hk
  | cons w ws ih =>
    rw [List.length_cons] at hlen
    cases k with
    | zero =>
      have hother (j : Nat) (hj : j < ws.length) : a ≠ a + 1#16 + BitVec.ofNat 16 j := by
        rw [← add_ofNat_succ]
        exact ne_add_ofNat (Nat.succ_pos j) (by omega)
      rw [BitVec.add_zero, State.loadWords, loadWords_cell_other _ hother, State.memWrite_cell_same]
      rfl
    | succ k =>
      rw [add_ofNat_succ]
      exact ih (s.memWrite a w) (a + 1#16) (by omega) k (Nat.lt_of_succ_lt_succ hk)

end Sys2Proof.Machine

open Sys2Proof Sys2Proof.Machine

/-- Settles O38: canonical lists that read the same, entry by entry. -/
theorem canonicalMemoryIsUnique : Obligations.CanonicalMemoryIsUnique := by
  intro m n hm hn h
  refine eq_of_read_eq hm hn fun a ha => ?_
  have hword := h (BitVec.ofNat 16 a)
  rwa [BitVec.toNat_ofNat, Nat.mod_eq_of_lt ha] at hword

/-- Settles O54: the invariant of every reset state, the one with the free values among them. -/
theorem invariantAtReset : Obligations.InvariantAtReset :=
  ⟨State.resetWith_inv Config.gprReset, State.resetWith_inv⟩

/-- Settles O56: the fields of the reset state. -/
theorem resetValues : Obligations.ResetValues :=
  fun gpr => ⟨rfl, rfl, State.resetWith_getReg gpr, fun _ => rfl, rfl, rfl, rfl, rfl, rfl⟩

/-- Settles O57: the image's words are read back, and the load writes them into consecutive cells. -/
theorem imageLoads : Obligations.ImageLoads := by
  intro s origin ws hlen
  refine ⟨s.loadWords origin ws, ?_, loadWords_cell s origin ws (by omega),
    fun a ha => loadWords_cell_other s ha, ?_⟩
  · rw [loadImage_imageBytes, if_pos hlen]
  · obtain ⟨m, hm⟩ := loadWords_frame s origin ws
    rw [hm]
    exact ⟨fun _ => rfl, rfl, rfl, ⟨rfl, rfl, rfl⟩, rfl, rfl⟩

/-- Settles O58: the three kinds of malformed image. -/
theorem malformedImageIsRefused : Obligations.MalformedImageIsRefused := by
  intro s bytes
  refine ⟨?odd, ?empty, ?tooLong⟩
  case odd =>
    intro h
    rw [State.loadImage, imageWords_of_odd h]
  case empty =>
    rintro rfl
    rfl
  case tooLong =>
    rintro origin ws rfl h
    rw [loadImage_imageBytes, if_neg (not_le.mpr h)]

/-- Settles O59: the load of `imageLoads` from the state of `resetValues`, and the entry. -/
theorem launchSequence : Obligations.LaunchSequence := by
  intro gpr origin ws entryPc hlen
  obtain ⟨-, hcond, hregs, hcells, hstatus, hout, hflushed, hheld, -⟩ := resetValues gpr
  obtain ⟨t, ht, hwords, hother, hsame, htcond, -, ⟨hts, hto, htf⟩, -, hth⟩ :=
    imageLoads (State.resetWith gpr) origin ws hlen
  refine ⟨t.setPc entryPc, ?_, rfl, htcond.trans hcond, fun r => (hsame r).trans (hregs r), hts.trans hstatus,
    hto.trans hout, htf.trans hflushed, hth.trans hheld, hwords, fun a ha => (hother a ha).trans (hcells a)⟩
  rw [State.launch, ht]
end
